-- ==== Sys2Proof/Word.lean ====
section
/-! DEFINITION. The value types of 00_scope R8 (bit 0 is the least significant bit, everything is unsigned) and the
names of the registers that a command can select (10_state R13, R19; 20_memory R38). -/

namespace Sys2Proof

/-- `u8` of 00_scope R8. -/
abbrev Byte := BitVec 8

/-- `u16` of 00_scope R8. -/
abbrev Word := BitVec 16

/-- `u24` of 00_scope R8: a command word (30_encoding R50). -/
abbrev CommandWord := BitVec 24

/-- The width of the fields `OP` and `SEL` of a command word (30_encoding R50). -/
abbrev Nibble := BitVec 4

/-- The names of the r8 select space: the eight 8-bit registers (20_memory R38, 30_encoding R52). -/
inductive Reg8
  | a | b | c | d | e | f | h | l
deriving DecidableEq, Repr

/-- The names of the r16 select space: two 16-bit registers and four pair views (20_memory R38, 30_encoding R53). -/
inductive Reg16
  | sp | pc | af | bc | de | hl
deriving DecidableEq, Repr

end Sys2Proof
end

