-- ==== Sys2Proof/Config.lean ====
section
/-! DEFINITION. The one open parameter of the block (00_scope R7). Everything else in R7's table is fixed and stands
where it is used. No operation yields an implementation-specific value (93_implementation_defined), so there is no
free value here. -/

namespace Sys2Proof

/-- `F_WMASK`, the mask applied to a value written to F by `setF` and `setAF` (00_scope R7, 10_state R26): the
normative 0xFF stores every bit (90_conflicts C1). DESIGN CHOICE, the spec's own D10: log entry 5. The operations of
Machine/Operands.lean take the mask as an argument, so that a claim can also be made of the alternative 0xF0
(93_implementation_defined U3). -/
def Config.fWmask : Byte := 0xFF#8

end Sys2Proof
end

