-- ==== Sys2Proof/Syntax.lean ====
section
/-! DEFINITION. The 29 operations of the register file (00_scope R5), one constructor per row of
spec/opcode_table.json and in the table's order. An operand has its register's own width (10_state R30, 30_encoding
R56: "A value cannot be out of range"), so no term of `Instr` is ill-formed; what can be ill-formed is a written call,
and WellFormed.lean checks those. -/

namespace Sys2Proof

/-- One operation with its operand. -/
inductive Instr
  | reset
  | getA | getB | getC | getD | getE | getF | getH | getL
  | setA (v : Byte) | setB (v : Byte) | setC (v : Byte) | setD (v : Byte)
  | setE (v : Byte) | setF (v : Byte) | setH (v : Byte) | setL (v : Byte)
  | getSP | getPC | getAF | getBC | getDE | getHL
  | setSP (v : Word) | setPC (v : Word) | setAF (v : Word)
  | setBC (v : Word) | setDE (v : Word) | setHL (v : Word)
deriving DecidableEq, Repr

end Sys2Proof
end

