-- ==== Sys2Proof/WellFormed.lean ====
section
/-! DEFINITION. Written calls (30_encoding R62 to R64) and the checks on them. In a written call the operand is a
number of any size and a register may be given by its id, so a call can be ill-formed: "a larger literal is a syntax
error and spells no command, it is never truncated" (R62), and an id outside its select space names nothing (R52,
R53). -/

namespace Sys2Proof

/-- How a call names an r8 register: "a name or an id" (30_encoding R63). -/
inductive RegArg8
  | name (r : Reg8)
  | id (n : Nat)
deriving DecidableEq, Repr

/-- How a call names an r16 register or pair: "a name or an id" (30_encoding R63). -/
inductive RegArg16
  | name (q : Reg16)
  | id (n : Nat)
deriving DecidableEq, Repr

/-- A written call. The named spelling `getA()` and the generic `get8(A)` are the same call (30_encoding R63);
`newCPU` is the one pseudo-operation (R64). -/
inductive Call
  | reset
  | newCPU
  | get8 (r : RegArg8)
  | set8 (r : RegArg8) (value : Nat)
  | get16 (q : RegArg16)
  | set16 (q : RegArg16) (value : Nat)
deriving DecidableEq, Repr

/-- An r8 id names a register when it is 0 to 7 (30_encoding R52). -/
def RegArg8.wellFormed : RegArg8 → Bool
  | .name _ => true
  | .id n => n ≤ 7

/-- An r16 id names a register or pair when it is 0 to 5 (30_encoding R53). -/
def RegArg16.wellFormed : RegArg16 → Bool
  | .name _ => true
  | .id n => n ≤ 5

/-- A call is well formed when its register exists and its literal fits the register's width, "0 to 255 or 0 to
65535" (30_encoding R62). -/
def Call.wellFormed : Call → Bool
  | .reset => true
  | .newCPU => true
  | .get8 r => r.wellFormed
  | .set8 r v => r.wellFormed && decide (v ≤ 255)
  | .get16 q => q.wellFormed
  | .set16 q v => q.wellFormed && decide (v ≤ 65535)

end Sys2Proof
end

