-- ==== Sys2Proof/Decode.lean ====
section
/-! DEFINITION. The command word, the decoder and the encoder (30_encoding R50 to R58). The decoder is total on all
2^24 words and never reads the state (R55, R61). A word it does not accept is rejected with the name of its class in
R58's table; the block's response does not tell the classes apart (60_exceptions R102). -/

namespace Sys2Proof

/-! ### Fields of a command word (R50) -/

/-- `OP = CW[23:20]`. -/
def opField (w : CommandWord) : Nibble := w.extractLsb' 20 4

/-- `SEL = CW[19:16]`. -/
def selField (w : CommandWord) : Nibble := w.extractLsb' 16 4

/-- `DATA = CW[15:0]`. -/
def dataField (w : CommandWord) : Word := w.extractLsb' 0 16

/-- `CW = OP * 2^20 + SEL * 2^16 + DATA` (R50). -/
def commandWord (op sel : Nibble) (data : Word) : CommandWord :=
  BitVec.ofNat 24 (op.toNat * 2 ^ 20 + sel.toNat * 2 ^ 16 + data.toNat)

/-- `v[15:8]` (00_scope R8). -/
def hiByte (v : Word) : Byte := v.extractLsb' 8 8

/-- `v[7:0]` (00_scope R8). -/
def loByte (v : Word) : Byte := v.extractLsb' 0 8

/-- `zext_16` (00_scope R10). -/
def zext16 (v : Byte) : Word := v.setWidth 16

/-! ### Select ids (R52, R53) -/

/-- The r8 id of a register (R52). -/
def r8Id : Reg8 → Nibble
  | .a => 0 | .b => 1 | .c => 2 | .d => 3 | .e => 4 | .f => 5 | .h => 6 | .l => 7

/-- The register of an r8 id; ids 8 to 15 name none (R52). -/
def r8Of (sel : Nibble) : Option Reg8 :=
  match sel.toNat with
  | 0 => some .a | 1 => some .b | 2 => some .c | 3 => some .d
  | 4 => some .e | 5 => some .f | 6 => some .h | 7 => some .l
  | _ => none

/-- The r16 id of a register or pair (R53). -/
def r16Id : Reg16 → Nibble
  | .sp => 0 | .pc => 1 | .af => 2 | .bc => 3 | .de => 4 | .hl => 5

/-- The register or pair of an r16 id; ids 6 to 15 name none (R53). -/
def r16Of (sel : Nibble) : Option Reg16 :=
  match sel.toNat with
  | 0 => some .sp | 1 => some .pc | 2 => some .af | 3 => some .bc | 4 => some .de | 5 => some .hl
  | _ => none

/-! ### Operations in their generic forms (R55, R63) -/

/-- `Op` of 30_encoding R55: the operations by group, the register as an operand. -/
inductive Op
  | reset
  | get8 (r : Reg8)
  | set8 (r : Reg8) (v : Byte)
  | get16 (q : Reg16)
  | set16 (q : Reg16) (v : Word)
deriving DecidableEq, Repr

/-- The named operation that a generic form is (R63). -/
def Op.toInstr : Op → Instr
  | .reset => .reset
  | .get8 .a => .getA | .get8 .b => .getB | .get8 .c => .getC | .get8 .d => .getD
  | .get8 .e => .getE | .get8 .f => .getF | .get8 .h => .getH | .get8 .l => .getL
  | .set8 .a v => .setA v | .set8 .b v => .setB v | .set8 .c v => .setC v | .set8 .d v => .setD v
  | .set8 .e v => .setE v | .set8 .f v => .setF v | .set8 .h v => .setH v | .set8 .l v => .setL v
  | .get16 .sp => .getSP | .get16 .pc => .getPC | .get16 .af => .getAF
  | .get16 .bc => .getBC | .get16 .de => .getDE | .get16 .hl => .getHL
  | .set16 .sp v => .setSP v | .set16 .pc v => .setPC v | .set16 .af v => .setAF v
  | .set16 .bc v => .setBC v | .set16 .de v => .setDE v | .set16 .hl v => .setHL v

/-- The generic form of a named operation (R63). -/
def Instr.toOp : Instr → Op
  | .reset => .reset
  | .getA => .get8 .a | .getB => .get8 .b | .getC => .get8 .c | .getD => .get8 .d
  | .getE => .get8 .e | .getF => .get8 .f | .getH => .get8 .h | .getL => .get8 .l
  | .setA v => .set8 .a v | .setB v => .set8 .b v | .setC v => .set8 .c v | .setD v => .set8 .d v
  | .setE v => .set8 .e v | .setF v => .set8 .f v | .setH v => .set8 .h v | .setL v => .set8 .l v
  | .getSP => .get16 .sp | .getPC => .get16 .pc | .getAF => .get16 .af
  | .getBC => .get16 .bc | .getDE => .get16 .de | .getHL => .get16 .hl
  | .setSP v => .set16 .sp v | .setPC v => .set16 .pc v | .setAF v => .set16 .af v
  | .setBC v => .set16 .bc v | .setDE v => .set16 .de v | .setHL v => .set16 .hl v

/-! ### The decoder (R55) -/

/-- `decode` of R55, arm by arm. -/
def decodeOp (w : CommandWord) : Option Op :=
  match (opField w).toNat with
  | 1 => if selField w = 0 ∧ dataField w = 0 then some .reset else none
  | 2 => if dataField w = 0 then (r8Of (selField w)).map .get8 else none
  | 3 => if hiByte (dataField w) = 0 then (r8Of (selField w)).map (.set8 · (loByte (dataField w))) else none
  | 4 => if dataField w = 0 then (r16Of (selField w)).map .get16 else none
  | 5 => (r16Of (selField w)).map (.set16 · (dataField w))
  | _ => none

/-- The classes of ILLEGAL words (R58). -/
inductive IllegalClass
  /-- I1: `OP` is 0x0 or 0x6 to 0xF. -/
  | reservedOp
  /-- I2: RESET with operand bits. -/
  | resetWithOperand
  /-- I3: GET8 with a bad id or data bits. -/
  | badGet8
  /-- I4: SET8 with a bad id or a wide value. -/
  | badSet8
  /-- I5: GET16 with a bad id or data bits. -/
  | badGet16
  /-- I6: SET16 with a bad id. -/
  | badSet16
deriving DecidableEq, Repr

/-- The condition column of R58's table, as the table writes it. -/
abbrev IllegalClass.Holds (w : CommandWord) : IllegalClass → Prop
  | .reservedOp => (opField w).toNat = 0 ∨ 6 ≤ (opField w).toNat
  | .resetWithOperand => (opField w).toNat = 1 ∧ (selField w ≠ 0 ∨ dataField w ≠ 0)
  | .badGet8 => (opField w).toNat = 2 ∧ (8 ≤ (selField w).toNat ∨ dataField w ≠ 0)
  | .badSet8 => (opField w).toNat = 3 ∧ (8 ≤ (selField w).toNat ∨ hiByte (dataField w) ≠ 0)
  | .badGet16 => (opField w).toNat = 4 ∧ (6 ≤ (selField w).toNat ∨ dataField w ≠ 0)
  | .badSet16 => (opField w).toNat = 5 ∧ 6 ≤ (selField w).toNat

/-- The class a rejected word falls under. A class belongs to one value of `OP` (or to the reserved ones), so `OP`
alone picks it: R58. -/
def illegalClass (w : CommandWord) : IllegalClass :=
  match (opField w).toNat with
  | 1 => .resetWithOperand
  | 2 => .badGet8
  | 3 => .badSet8
  | 4 => .badGet16
  | 5 => .badSet16
  | _ => .reservedOp

/-- What the decoder makes of a command word: an operation, or ILLEGAL with its class. -/
inductive Decoded
  | op (i : Instr)
  | illegal (c : IllegalClass)
deriving DecidableEq, Repr

/-- The decoder: R55 on the named operations, a rejected word named by its class of R58. -/
def decode (w : CommandWord) : Decoded :=
  match decodeOp w with
  | some op => .op op.toInstr
  | none => .illegal (illegalClass w)

/-- The operation of a decoded word, if it is one. -/
def Decoded.instr? : Decoded → Option Instr
  | .op i => some i
  | .illegal _ => none

/-! ### The encoder (R50, R51, R54) -/

/-- The word of a generic form: R50's formula with the fields of R54's formats and the `OP` values of R51. -/
def encodeOp : Op → CommandWord
  | .reset => commandWord 1 0 0
  | .get8 r => commandWord 2 (r8Id r) 0
  | .set8 r v => commandWord 3 (r8Id r) (zext16 v)
  | .get16 q => commandWord 4 (r16Id q) 0
  | .set16 q v => commandWord 5 (r16Id q) v

/-- The command word of an operation. -/
def encode (i : Instr) : CommandWord := encodeOp i.toOp

/-! ### The opcode table (R54, R57) -/

/-- The same operation with its operand, where it has one, set to zero. -/
def Instr.blank : Instr → Instr
  | .reset => .reset
  | .getA => .getA | .getB => .getB | .getC => .getC | .getD => .getD
  | .getE => .getE | .getF => .getF | .getH => .getH | .getL => .getL
  | .setA _ => .setA 0 | .setB _ => .setB 0 | .setC _ => .setC 0 | .setD _ => .setD 0
  | .setE _ => .setE 0 | .setF _ => .setF 0 | .setH _ => .setH 0 | .setL _ => .setL 0
  | .getSP => .getSP | .getPC => .getPC | .getAF => .getAF
  | .getBC => .getBC | .getDE => .getDE | .getHL => .getHL
  | .setSP _ => .setSP 0 | .setPC _ => .setPC 0 | .setAF _ => .setAF 0
  | .setBC _ => .setBC 0 | .setDE _ => .setDE 0 | .setHL _ => .setHL 0

/-- A row of spec/opcode_table.json: the operation (operand zero), its `match` and its `mask`. -/
structure Row where
  op : Instr
  pattern : CommandWord
  mask : CommandWord
deriving DecidableEq, Repr

/-- The rows of formats N, G with `OP` = 2, and S8 (R57). -/
def opcodeRows8 : List Row := [
  ⟨.reset, 0x100000#24, 0xFFFFFF#24⟩,
  ⟨.getA, 0x200000#24, 0xFFFFFF#24⟩,
  ⟨.getB, 0x210000#24, 0xFFFFFF#24⟩,
  ⟨.getC, 0x220000#24, 0xFFFFFF#24⟩,
  ⟨.getD, 0x230000#24, 0xFFFFFF#24⟩,
  ⟨.getE, 0x240000#24, 0xFFFFFF#24⟩,
  ⟨.getF, 0x250000#24, 0xFFFFFF#24⟩,
  ⟨.getH, 0x260000#24, 0xFFFFFF#24⟩,
  ⟨.getL, 0x270000#24, 0xFFFFFF#24⟩,
  ⟨.setA 0, 0x300000#24, 0xFFFF00#24⟩,
  ⟨.setB 0, 0x310000#24, 0xFFFF00#24⟩,
  ⟨.setC 0, 0x320000#24, 0xFFFF00#24⟩,
  ⟨.setD 0, 0x330000#24, 0xFFFF00#24⟩,
  ⟨.setE 0, 0x340000#24, 0xFFFF00#24⟩,
  ⟨.setF 0, 0x350000#24, 0xFFFF00#24⟩,
  ⟨.setH 0, 0x360000#24, 0xFFFF00#24⟩,
  ⟨.setL 0, 0x370000#24, 0xFFFF00#24⟩]

/-- The rows of format G with `OP` = 4, and of S16 (R57). -/
def opcodeRows16 : List Row := [
  ⟨.getSP, 0x400000#24, 0xFFFFFF#24⟩,
  ⟨.getPC, 0x410000#24, 0xFFFFFF#24⟩,
  ⟨.getAF, 0x420000#24, 0xFFFFFF#24⟩,
  ⟨.getBC, 0x430000#24, 0xFFFFFF#24⟩,
  ⟨.getDE, 0x440000#24, 0xFFFFFF#24⟩,
  ⟨.getHL, 0x450000#24, 0xFFFFFF#24⟩,
  ⟨.setSP 0, 0x500000#24, 0xFF0000#24⟩,
  ⟨.setPC 0, 0x510000#24, 0xFF0000#24⟩,
  ⟨.setAF 0, 0x520000#24, 0xFF0000#24⟩,
  ⟨.setBC 0, 0x530000#24, 0xFF0000#24⟩,
  ⟨.setDE 0, 0x540000#24, 0xFF0000#24⟩,
  ⟨.setHL 0, 0x550000#24, 0xFF0000#24⟩]

/-- The 29 rows of the opcode table (R57). -/
def opcodeTable : List Row := opcodeRows8 ++ opcodeRows16

/-- "a word `w` spells the row's operation exactly when `w & mask = match`" (R54). -/
abbrev Row.Spells (row : Row) (w : CommandWord) : Prop := w &&& row.mask = row.pattern

/-! ### Words as the opcode table numbers them -/

/-- The command word whose low `nbits` bits are `w`'s and whose higher bits are zero: log entry 4. -/
def tableWord (nbits w : Nat) : CommandWord := BitVec.ofNat 24 (w % 2 ^ nbits)

/-- The operation the decoder reads from a word of the opcode table. -/
def decodeTableWord (nbits w : Nat) : Option Instr := (decode (tableWord nbits w)).instr?

end Sys2Proof
end

