-- ==== Sys2Proof/Machine/State.lean ====
section
/-! DEFINITION. The state of one register file and its port, as plain data. The register file is exactly the ten
fields of 10_state R13; the port is that of 30_encoding R65. There is no memory (20_memory R37), no mode, no control
register and no hidden state (10_state R31, R32). -/

namespace Sys2Proof.Machine

/-- `RF` of 10_state R13: the ten fields, 96 bits. Pairs are computed views (R22) and have no field. -/
structure RegFile where
  a : Byte
  b : Byte
  c : Byte
  d : Byte
  e : Byte
  f : Byte
  h : Byte
  l : Byte
  sp : Word
  pc : Word
deriving DecidableEq, Repr

/-- `RESET_STATE` of 10_state R33. -/
def RegFile.reset : RegFile where
  a := 0x01
  b := 0x00
  c := 0x13
  d := 0x00
  e := 0xD8
  f := 0xB0
  h := 0x01
  l := 0x4D
  sp := 0xFFFE
  pc := 0x0100

/-- `Rsp` of 00_scope R9: the response of one step, on the lines `rsp_err` and `rsp_data` (30_encoding R60, R65). -/
structure Response where
  err : Bool
  data : Word
deriving DecidableEq, Repr

/-- What the response lines show when they carry nothing: `rsp_err = 0`, `rsp_data = 0x0000` (30_encoding R65). -/
def Response.zero : Response := ⟨false, 0⟩

/-- The input pins of one clock cycle (30_encoding R65). -/
structure PortIn where
  /-- synchronous reset, active high (70 R115) -/
  rst : Bool
  /-- 1 when `cmd` holds a command for this cycle -/
  cmdValid : Bool
  /-- the command word -/
  cmd : CommandWord
deriving DecidableEq, Repr

/-- The register file with its port. -/
structure State where
  /-- the architectural state (10_state R13) -/
  rf : RegFile
  /-- the response lines of the cycle just performed; nothing reads them (60 R104). DESIGN CHOICE: log entry 2. -/
  rsp : Response
  /-- the pins of the coming cycles, the next cycle first; when it is empty the consumer has stopped and the port is
  idle (70 R126). DESIGN CHOICE: log entry 1. -/
  inputs : List PortIn
deriving DecidableEq, Repr

/-- No operation can fail, raise or block, and every state accepts every command (60 R101, 70 R126): there is no
fault, so the type has no constructor. -/
inductive Fault
deriving DecidableEq, Repr

/-- Why a step could have no meaning. -/
inductive Refusal
  /-- Raised only by an arm of exec whose instruction has no meaning in the model; no arm raises it now. Safe: the
  model stops where the hardware goes on. -/
  | notModelled (mnemonic : String)
deriving DecidableEq, Repr

/-- Right after reset: every field of the register file at its value of 10_state R33, the response lines zero as
while `rst = 1` (70 R115), and no command presented yet (DESIGN CHOICE: log entry 3). -/
def State.reset : State where
  rf := RegFile.reset
  rsp := Response.zero
  inputs := []

end Sys2Proof.Machine
end

