-- ==== Sys2Proof/Machine/Flags.lean ====
section
/-! DEFINITION. The flag register F (10_state R23 to R26): the flags as views of its bits, the write mask, and the
predicate `Canonical`. No operation of the block computes, reads or writes a single flag (R24, R25), so there is no
other flag computation. -/

namespace Sys2Proof.Machine

/-- Z, bit 7 of F (10_state R24, the spec's decision D9: log entry 11). -/
def RegFile.flagZ (rf : RegFile) : Bool := rf.f.getLsbD 7

/-- N, bit 6 of F (10_state R24). -/
def RegFile.flagN (rf : RegFile) : Bool := rf.f.getLsbD 6

/-- H, bit 5 of F (10_state R24). It is not register H. -/
def RegFile.flagH (rf : RegFile) : Bool := rf.f.getLsbD 5

/-- C, bit 4 of F (10_state R24). It is not register C. -/
def RegFile.flagC (rf : RegFile) : Bool := rf.f.getLsbD 4

/-- What a write of `v` to F stores: `v & F_WMASK` (10_state R26). -/
def maskF (fWmask v : Byte) : Byte := v &&& fWmask

/-- `v[3:0]`. -/
def lowNibble (v : Byte) : Nibble := v.extractLsb' 0 4

/-- `Canonical(s) := (s.F[3:0] = 0)` (10_state R26). -/
abbrev RegFile.Canonical (rf : RegFile) : Prop := lowNibble rf.f = 0

end Sys2Proof.Machine
end

