-- ==== Sys2Proof/Machine/Operands.lean ====
section
/-! DEFINITION. Reading and writing a register by its name (20_memory R38, 30_encoding R56): the only operand forms
are "register by id" and "immediate value". A pair is composed and decomposed byte by byte on each access and has no
storage of its own (10_state R22). Every write to F goes through the mask, which is an argument here (R26). -/

namespace Sys2Proof.Machine

/-- `{hi, lo}`, the value `256 * hi + lo` (00_scope R8, 10_state R20). -/
def pair (hi lo : Byte) : Word := BitVec.ofNat 16 (256 * hi.toNat + lo.toNat)

/-- `x[r]` (00_scope R10). F is returned as stored, with no mask on the way out (41_get8 R75). -/
def RegFile.read8 (rf : RegFile) : Reg8 → Byte
  | .a => rf.a
  | .b => rf.b
  | .c => rf.c
  | .d => rf.d
  | .e => rf.e
  | .f => rf.f
  | .h => rf.h
  | .l => rf.l

/-- `x[r] <- v` (00_scope R10): every other field keeps its value; F takes `v & F_WMASK` (43_set8 R91). -/
def RegFile.write8 (fWmask : Byte) (r : Reg8) (v : Byte) (rf : RegFile) : RegFile :=
  match r with
  | .a => { rf with a := v }
  | .b => { rf with b := v }
  | .c => { rf with c := v }
  | .d => { rf with d := v }
  | .e => { rf with e := v }
  | .f => { rf with f := maskF fWmask v }
  | .h => { rf with h := v }
  | .l => { rf with l := v }

/-- The 16-bit value of SP, PC or a pair, the first-named register high (10_state R20, 42_get16 R79 to R84). -/
def RegFile.read16 (rf : RegFile) : Reg16 → Word
  | .sp => rf.sp
  | .pc => rf.pc
  | .af => pair (rf.read8 .a) (rf.read8 .f)
  | .bc => pair (rf.read8 .b) (rf.read8 .c)
  | .de => pair (rf.read8 .d) (rf.read8 .e)
  | .hl => pair (rf.read8 .h) (rf.read8 .l)

/-- `pair(hi, lo) <- v` (00_scope R10): both halves in the one step (10_state R21). -/
def RegFile.writePair (fWmask : Byte) (hi lo : Reg8) (v : Word) (rf : RegFile) : RegFile :=
  (rf.write8 fWmask hi (hiByte v)).write8 fWmask lo (loByte v)

/-- Storing a 16-bit value in SP, PC or a pair (10_state R21, 44_set16 R95 to R100). -/
def RegFile.write16 (fWmask : Byte) (q : Reg16) (v : Word) (rf : RegFile) : RegFile :=
  match q with
  | .sp => { rf with sp := v }
  | .pc => { rf with pc := v }
  | .af => rf.writePair fWmask .a .f v
  | .bc => rf.writePair fWmask .b .c v
  | .de => rf.writePair fWmask .d .e v
  | .hl => rf.writePair fWmask .h .l v

end Sys2Proof.Machine
end

