-- ==== Sys2Proof/Machine/Ops.lean ====
section
/-! DEFINITION. The operations a step is made of: what the pins of a cycle ask for, and the ways a cycle can end: an
answered operation, the ILLEGAL response, the reset pin, an idle cycle (30_encoding R60, R65, R66; 60 R103; 70 R115).
ILLEGAL is the one condition the block reports; it is an output, not a trap: nothing is saved, no mode changes, control
goes nowhere, and so there is nothing to return from (60 R103, R108, R109). -/

namespace Sys2Proof.Machine

/-! ### The command port -/

/-- What happens at a clock edge, in the transaction model (70 R115, R126). -/
inductive Event
  /-- the reset pin, the event `Reset` of 70 R115 -/
  | reset
  /-- a command word -/
  | word (w : CommandWord)
deriving DecidableEq, Repr

/-- The pins of an idle cycle (30_encoding R66). -/
def PortIn.idle : PortIn := ⟨false, false, 0⟩

/-- The pins of a cycle that presents a command (30_encoding R65). -/
def PortIn.command (w : CommandWord) : PortIn := ⟨false, true, w⟩

/-- The event the pins ask for: reset beats a command (70 R117), and an idle cycle is none (30_encoding R66). -/
def PortIn.event (p : PortIn) : Option Event :=
  if p.rst then some .reset
  else if p.cmdValid then some (.word p.cmd)
  else none

/-- The pins of the cycle being performed, and the state with that cycle taken off the list. A consumer that has
stopped leaves the port idle (70 R126). -/
def State.fetch (s : State) : PortIn × State :=
  match s.inputs with
  | [] => (PortIn.idle, s)
  | p :: rest => (p, { s with inputs := rest })

/-! ### How a cycle ends -/

/-- An operation has been performed: the register file is `rf`, the response is `err = 0` with `data`
(30_encoding R60). -/
def State.answer (s : State) (rf : RegFile) (data : Word) : State :=
  { s with rf := rf, rsp := ⟨false, data⟩ }

/-- A read: the response carries the value, the register file is untouched (10_state R28, 30_encoding R60). -/
def State.answerRead (s : State) (data : Word) : State := s.answer s.rf data

/-- A write: the register file is `rf`, the response data is 0x0000 (30_encoding R60). -/
def State.answerWrite (s : State) (rf : RegFile) : State := s.answer rf 0

/-- ILLEGAL (60 R103): all ten fields keep their values, the response is `err = 1`, `data = 0x0000`. -/
def State.takeIllegal (s : State) : State := { s with rsp := ⟨true, 0⟩ }

/-- The reset pin at a clock edge (70 R115). -/
def State.resetPin (s : State) : State := { s with rf := RegFile.reset, rsp := Response.zero }

/-- An idle cycle (30_encoding R66). -/
def State.idle (s : State) : State := { s with rsp := Response.zero }

/-! ### The shapes of the operations -/

/-- GET8 (41_get8 R69): `rsp <- zext_16(x[r])`. -/
def State.get8 (r : Reg8) (s : State) : State := s.answerRead (zext16 (s.rf.read8 r))

/-- GET16 (42_get16 R78): the 16-bit value. -/
def State.get16 (q : Reg16) (s : State) : State := s.answerRead (s.rf.read16 q)

/-- SET8 (43_set8 R85). -/
def State.set8 (r : Reg8) (v : Byte) (s : State) : State := s.answerWrite (s.rf.write8 Config.fWmask r v)

/-- SET16 (44_set16 R94). -/
def State.set16 (q : Reg16) (v : Word) (s : State) : State := s.answerWrite (s.rf.write16 Config.fWmask q v)

/-- The command `reset` (40_reset R68): in place, and its write to F does not pass through the mask. -/
def State.resetCommand (s : State) : State := s.answerWrite RegFile.reset

end Sys2Proof.Machine
end

