-- ==== Sys2Proof/Machine/Get16.lean ====
section
/-! DEFINITION. The meanings of the 16-bit reads (42_get16 R78 to R84): the value on the response, no field changed. -/

namespace Sys2Proof.Machine

/-- `getSP` (42_get16 R79). -/
def execGetSP (s : State) : Host.Outcome State Fault Refusal := .next (s.get16 .sp)

/-- `getPC` (42_get16 R80). -/
def execGetPC (s : State) : Host.Outcome State Fault Refusal := .next (s.get16 .pc)

/-- `getAF` (42_get16 R81). -/
def execGetAF (s : State) : Host.Outcome State Fault Refusal := .next (s.get16 .af)

/-- `getBC` (42_get16 R82). -/
def execGetBC (s : State) : Host.Outcome State Fault Refusal := .next (s.get16 .bc)

/-- `getDE` (42_get16 R83). -/
def execGetDE (s : State) : Host.Outcome State Fault Refusal := .next (s.get16 .de)

/-- `getHL` (42_get16 R84). -/
def execGetHL (s : State) : Host.Outcome State Fault Refusal := .next (s.get16 .hl)

end Sys2Proof.Machine
end

