-- ==== Sys2Proof/Machine/Get8.lean ====
section
/-! DEFINITION. The meanings of the 8-bit reads (41_get8 R69 to R77): the register zero-extended on the response, no field
changed. -/

namespace Sys2Proof.Machine

/-- `getA` (41_get8 R70). -/
def execGetA (s : State) : Host.Outcome State Fault Refusal := .next (s.get8 .a)

/-- `getB` (41_get8 R71). -/
def execGetB (s : State) : Host.Outcome State Fault Refusal := .next (s.get8 .b)

/-- `getC` (41_get8 R72). -/
def execGetC (s : State) : Host.Outcome State Fault Refusal := .next (s.get8 .c)

/-- `getD` (41_get8 R73). -/
def execGetD (s : State) : Host.Outcome State Fault Refusal := .next (s.get8 .d)

/-- `getE` (41_get8 R74). -/
def execGetE (s : State) : Host.Outcome State Fault Refusal := .next (s.get8 .e)

/-- `getF` (41_get8 R75). -/
def execGetF (s : State) : Host.Outcome State Fault Refusal := .next (s.get8 .f)

/-- `getH` (41_get8 R76). -/
def execGetH (s : State) : Host.Outcome State Fault Refusal := .next (s.get8 .h)

/-- `getL` (41_get8 R77). -/
def execGetL (s : State) : Host.Outcome State Fault Refusal := .next (s.get8 .l)

end Sys2Proof.Machine
end

