-- ==== Sys2Proof/Machine/Reset.lean ====
section
/-! DEFINITION. The meaning of `reset` (40_reset R67, R68). -/

namespace Sys2Proof.Machine

/-- `reset` (40_reset R68). -/
def execReset (s : State) : Host.Outcome State Fault Refusal := .next s.resetCommand

end Sys2Proof.Machine
end

