-- ==== Sys2Proof/Machine/Set16.lean ====
section
/-! DEFINITION. The meanings of the 16-bit writes (44_set16 R94 to R100): a pair's halves stored in one step, every other
field unchanged, response 0x0000. -/

namespace Sys2Proof.Machine

/-- `setSP(v)` (44_set16 R95). -/
def execSetSP (v : Word) (s : State) : Host.Outcome State Fault Refusal := .next (s.set16 .sp v)

/-- `setPC(v)` (44_set16 R96). -/
def execSetPC (v : Word) (s : State) : Host.Outcome State Fault Refusal := .next (s.set16 .pc v)

/-- `setAF(v)` (44_set16 R97). -/
def execSetAF (v : Word) (s : State) : Host.Outcome State Fault Refusal := .next (s.set16 .af v)

/-- `setBC(v)` (44_set16 R98). -/
def execSetBC (v : Word) (s : State) : Host.Outcome State Fault Refusal := .next (s.set16 .bc v)

/-- `setDE(v)` (44_set16 R99). -/
def execSetDE (v : Word) (s : State) : Host.Outcome State Fault Refusal := .next (s.set16 .de v)

/-- `setHL(v)` (44_set16 R100). -/
def execSetHL (v : Word) (s : State) : Host.Outcome State Fault Refusal := .next (s.set16 .hl v)

end Sys2Proof.Machine
end

