-- ==== Sys2Proof/Machine/Set8.lean ====
section
/-! DEFINITION. The meanings of the 8-bit writes (43_set8 R85 to R93): the one register stored, every other field unchanged,
response 0x0000. -/

namespace Sys2Proof.Machine

/-- `setA(v)` (43_set8 R86). -/
def execSetA (v : Byte) (s : State) : Host.Outcome State Fault Refusal := .next (s.set8 .a v)

/-- `setB(v)` (43_set8 R87). -/
def execSetB (v : Byte) (s : State) : Host.Outcome State Fault Refusal := .next (s.set8 .b v)

/-- `setC(v)` (43_set8 R88). -/
def execSetC (v : Byte) (s : State) : Host.Outcome State Fault Refusal := .next (s.set8 .c v)

/-- `setD(v)` (43_set8 R89). -/
def execSetD (v : Byte) (s : State) : Host.Outcome State Fault Refusal := .next (s.set8 .d v)

/-- `setE(v)` (43_set8 R90). -/
def execSetE (v : Byte) (s : State) : Host.Outcome State Fault Refusal := .next (s.set8 .e v)

/-- `setF(v)` (43_set8 R91). -/
def execSetF (v : Byte) (s : State) : Host.Outcome State Fault Refusal := .next (s.set8 .f v)

/-- `setH(v)` (43_set8 R92). -/
def execSetH (v : Byte) (s : State) : Host.Outcome State Fault Refusal := .next (s.set8 .h v)

/-- `setL(v)` (43_set8 R93). -/
def execSetL (v : Byte) (s : State) : Host.Outcome State Fault Refusal := .next (s.set8 .l v)

end Sys2Proof.Machine
end

