-- ==== Sys2Proof/Machine/Dispatch.lean ====
section
/-! DEFINITION. `perform` of 00_scope R9 on the machine's state: one arm per operation, in the opcode table's order. -/

namespace Sys2Proof.Machine

def exec (i : Instr) (s : State) : Host.Outcome State Fault Refusal :=
  match i with
  | .reset => Sys2Proof.Machine.execReset s
  | .getA => Sys2Proof.Machine.execGetA s
  | .getB => Sys2Proof.Machine.execGetB s
  | .getC => Sys2Proof.Machine.execGetC s
  | .getD => Sys2Proof.Machine.execGetD s
  | .getE => Sys2Proof.Machine.execGetE s
  | .getF => Sys2Proof.Machine.execGetF s
  | .getH => Sys2Proof.Machine.execGetH s
  | .getL => Sys2Proof.Machine.execGetL s
  | .setA v => Sys2Proof.Machine.execSetA v s
  | .setB v => Sys2Proof.Machine.execSetB v s
  | .setC v => Sys2Proof.Machine.execSetC v s
  | .setD v => Sys2Proof.Machine.execSetD v s
  | .setE v => Sys2Proof.Machine.execSetE v s
  | .setF v => Sys2Proof.Machine.execSetF v s
  | .setH v => Sys2Proof.Machine.execSetH v s
  | .setL v => Sys2Proof.Machine.execSetL v s
  | .getSP => Sys2Proof.Machine.execGetSP s
  | .getPC => Sys2Proof.Machine.execGetPC s
  | .getAF => Sys2Proof.Machine.execGetAF s
  | .getBC => Sys2Proof.Machine.execGetBC s
  | .getDE => Sys2Proof.Machine.execGetDE s
  | .getHL => Sys2Proof.Machine.execGetHL s
  | .setSP v => Sys2Proof.Machine.execSetSP v s
  | .setPC v => Sys2Proof.Machine.execSetPC v s
  | .setAF v => Sys2Proof.Machine.execSetAF v s
  | .setBC v => Sys2Proof.Machine.execSetBC v s
  | .setDE v => Sys2Proof.Machine.execSetDE v s
  | .setHL v => Sys2Proof.Machine.execSetHL v s

end Sys2Proof.Machine
end

