-- ==== Sys2Proof/Machine/Step.lean ====
section
/-! DEFINITION. One step is one clock cycle of the port (30_encoding R65, 70 R125): the pins of the cycle are taken
from `inputs`, and the block resets, idles, performs the command or answers ILLEGAL. The response lines of the cycle
stand in the state after it (log entries 1 and 2). -/

namespace Sys2Proof.Machine

/-- One clock cycle. `rst` beats a command (70 R117); a cycle without a command holds the state (30_encoding R66); a
word that spells no operation is ILLEGAL (60 R103); any other word is performed by exec (00_scope R9). -/
def step (s : State) : Host.Outcome State Fault Refusal :=
  match s.fetch.1.event with
  | none => .next s.fetch.2.idle
  | some .reset => .next s.fetch.2.resetPin
  | some (.word w) =>
    match decode w with
    | .op i => exec i s.fetch.2
    | .illegal _ => .next s.fetch.2.takeIllegal

/-- `s` with the command word presented on the port in the next cycle, before whatever else the consumer has to
send: the block fetches no command from anywhere (30_encoding R65), so this stands for the consumer's issuing it
(log entry 4). -/
def State.withFetchWord (s : State) (nbits w : Nat) : State :=
  { s with inputs := PortIn.command (tableWord nbits w) :: s.inputs }

end Sys2Proof.Machine
end

