-- ==== Sys2Proof/Machine/Assembly.lean ====
section
/-! DEFINITION. The call syntax (30_encoding R62 to R64): from text to calls, from a well-formed call to its operation,
and an operation written as a call. Text is a list of characters. What R62 leaves open of the text (where spaces may
stand, the case of hexadecimal letters, empty pieces of a program) is log entry 14. -/

namespace Sys2Proof.Machine

/-! ### From a call to its operation -/

/-- The register a well-formed argument names: a name, or an id of 30_encoding R52. -/
def regOf8 : RegArg8 → Option Reg8
  | .name r => some r
  | .id n => if n ≤ 7 then r8Of (BitVec.ofNat 4 n) else none

/-- The register or pair a well-formed argument names: a name, or an id of 30_encoding R53. -/
def regOf16 : RegArg16 → Option Reg16
  | .name q => some q
  | .id n => if n ≤ 5 then r16Of (BitVec.ofNat 4 n) else none

/-- The operation of a call (R63), `NewCPU()` being `reset()` (R64); a literal that does not fit spells no command
and is never truncated (R62). -/
def assemble : Call → Option Op
  | .reset => some .reset
  | .newCPU => some .reset
  | .get8 r => (regOf8 r).map .get8
  | .set8 r v => if v ≤ 255 then (regOf8 r).map (.set8 · (BitVec.ofNat 8 v)) else none
  | .get16 q => (regOf16 q).map .get16
  | .set16 q v => if v ≤ 65535 then (regOf16 q).map (.set16 · (BitVec.ofNat 16 v)) else none

/-! ### Numbers: decimal or `0x` hexadecimal (R62) -/

/-- The value of a character that stands among the `count` consecutive ones from `first` on, `first` being worth
`value`. -/
def placeIn (first : Char) (count value : Nat) (c : Char) : Option Nat :=
  if first.toNat ≤ c.toNat ∧ c.toNat < first.toNat + count then some (value + (c.toNat - first.toNat)) else none

/-- The value of one decimal or hexadecimal digit (R62). A hexadecimal letter of either case is read: DESIGN CHOICE,
log entry 14. -/
def digitOf (c : Char) : Option Nat :=
  (placeIn '0' 10 0 c).or ((placeIn 'A' 6 10 c).or (placeIn 'a' 6 10 c))

/-- The value of a row of digits to a base, continuing from `acc`. -/
def digitsFrom (base : Nat) : Nat → List Char → Option Nat
  | acc, [] => some acc
  | acc, c :: cs =>
    match digitOf c with
    | some d => if d < base then digitsFrom base (acc * base + d) cs else none
    | none => none

/-- An unsigned number, decimal or `0x` hexadecimal, of at least one digit. -/
def parseNumber : List Char → Option Nat
  | [] => none
  | ['0', 'x'] => none
  | '0' :: 'x' :: c :: cs => digitsFrom 16 0 (c :: cs)
  | c :: cs => digitsFrom 10 0 (c :: cs)

/-! ### Names (R62) -/

/-- An 8-bit register by name. -/
def parseReg8 : List Char → Option Reg8
  | ['A'] => some .a
  | ['B'] => some .b
  | ['C'] => some .c
  | ['D'] => some .d
  | ['E'] => some .e
  | ['F'] => some .f
  | ['H'] => some .h
  | ['L'] => some .l
  | _ => none

/-- A 16-bit register or pair by name. -/
def parseReg16 : List Char → Option Reg16
  | ['S', 'P'] => some .sp
  | ['P', 'C'] => some .pc
  | ['A', 'F'] => some .af
  | ['B', 'C'] => some .bc
  | ['D', 'E'] => some .de
  | ['H', 'L'] => some .hl
  | _ => none

/-- An r8 argument of a generic call: a name or an id (R63). -/
def parseArg8 (cs : List Char) : Option RegArg8 :=
  match parseReg8 cs with
  | some r => some (.name r)
  | none => (parseNumber cs).map .id

/-- An r16 argument of a generic call: a name or an id (R63). -/
def parseArg16 (cs : List Char) : Option RegArg16 :=
  match parseReg16 cs with
  | some q => some (.name q)
  | none => (parseNumber cs).map .id

/-! ### Calls -/

/-- A space between the parts of a call. No other character is one: DESIGN CHOICE, log entry 14. -/
def isBlank (c : Char) : Bool := c == ' '

/-- Without the spaces at both ends. -/
def trim (cs : List Char) : List Char :=
  ((cs.dropWhile isBlank).reverse.dropWhile isBlank).reverse

/-- Cut at every character that `sep` accepts. -/
def cutAt (sep : Char → Bool) : List Char → List (List Char)
  | [] => [[]]
  | c :: cs =>
    if sep c then [] :: cutAt sep cs
    else
      match cutAt sep cs with
      | [] => [[c]]
      | w :: ws => (c :: w) :: ws

/-- The arguments between the parentheses. -/
def parseArgs (body : List Char) : List (List Char) :=
  if trim body = [] then [] else (cutAt (· == ',') body).map trim

/-- The call a name and its arguments spell (R62 to R64). -/
def parseShape : List Char → List (List Char) → Option Call
  | ['r', 'e', 's', 'e', 't'], [] => some .reset
  | ['N', 'e', 'w', 'C', 'P', 'U'], [] => some .newCPU
  | ['g', 'e', 't', '8'], [r] => (parseArg8 r).map .get8
  | ['s', 'e', 't', '8'], [r, v] => (parseArg8 r).bind fun r => (parseNumber v).map (.set8 r)
  | ['g', 'e', 't', '1', '6'], [q] => (parseArg16 q).map .get16
  | ['s', 'e', 't', '1', '6'], [q, v] => (parseArg16 q).bind fun q => (parseNumber v).map (.set16 q)
  | 'g' :: 'e' :: 't' :: name, [] =>
    match parseReg8 name with
    | some r => some (.get8 (.name r))
    | none => (parseReg16 name).map fun q => .get16 (.name q)
  | 's' :: 'e' :: 't' :: name, [v] =>
    match parseReg8 name with
    | some r => (parseNumber v).map (.set8 (.name r))
    | none => (parseReg16 name).bind fun q => (parseNumber v).map (.set16 (.name q))
  | _, _ => none

/-- One call: a name, `(`, the arguments separated by commas, `)` (R62). -/
def parseCall (text : List Char) : Option Call :=
  match (trim text).span (· ≠ '(') with
  | (name, '(' :: rest) =>
    match rest.reverse with
    | ')' :: body => parseShape name (parseArgs body.reverse)
    | _ => none
  | _ => none

/-- The operation of a written call; none where the text is no call or the call is not well formed. -/
def parseOp (text : List Char) : Option Op := (parseCall text).bind assemble

/-- A program: "a sequence of such calls, one per line or separated by `;`" (R62). R62 does not say whether a piece
between two separators may be empty; here it may, and it spells no call: empty lines, `;;`, a `;` before a line's end
or the text's, and an empty text are read. DESIGN CHOICE, log entry 14. -/
def parseProgram (text : List Char) : Option (List Op) :=
  (((cutAt (fun c => c == ';' || c == '\n') text).map trim).filter (· ≠ [])).mapM parseOp

/-! ### An operation written as a call (R62) -/

/-- A hexadecimal digit. -/
def hexDigit (n : Nibble) : Char :=
  if n.toNat < 10 then Char.ofNat ('0'.toNat + n.toNat) else Char.ofNat ('A'.toNat + (n.toNat - 10))

/-- An 8-bit literal. -/
def hex8 (v : Byte) : List Char := ['0', 'x', hexDigit (v.extractLsb' 4 4), hexDigit (v.extractLsb' 0 4)]

/-- A 16-bit literal. -/
def hex16 (v : Word) : List Char :=
  ['0', 'x', hexDigit (v.extractLsb' 12 4), hexDigit (v.extractLsb' 8 4), hexDigit (v.extractLsb' 4 4),
    hexDigit (v.extractLsb' 0 4)]

/-- The name of an 8-bit register. -/
def nameOf8 : Reg8 → List Char
  | .a => ['A'] | .b => ['B'] | .c => ['C'] | .d => ['D'] | .e => ['E'] | .f => ['F'] | .h => ['H'] | .l => ['L']

/-- The name of a 16-bit register or pair. -/
def nameOf16 : Reg16 → List Char
  | .sp => ['S', 'P'] | .pc => ['P', 'C'] | .af => ['A', 'F'] | .bc => ['B', 'C'] | .de => ['D', 'E'] | .hl => ['H', 'L']

/-- An operation as the document writes it: `reset()`, `getA()`, `setBC(0xABCD)`. -/
def writeCall : Op → List Char
  | .reset => ['r', 'e', 's', 'e', 't', '(', ')']
  | .get8 r => ['g', 'e', 't'] ++ nameOf8 r ++ ['(', ')']
  | .set8 r v => ['s', 'e', 't'] ++ nameOf8 r ++ ['('] ++ hex8 v ++ [')']
  | .get16 q => ['g', 'e', 't'] ++ nameOf16 q ++ ['(', ')']
  | .set16 q v => ['s', 'e', 't'] ++ nameOf16 q ++ ['('] ++ hex16 v ++ [')']

end Sys2Proof.Machine
end

