-- ==== Sys2Proof/Machine/Instances.lean ====
section
/-! DEFINITION. A system that holds several register files (10_state R36): each is a state of its own, nothing is
shared, and an instance is told apart only by its place in the list. Log entry 15. -/

namespace Sys2Proof.Machine

/-- The system after instance `k` has performed one cycle; a number beyond the list names no instance. -/
def stepInstance (k : Nat) (system : List State) : List State :=
  match system[k]? with
  | none => system
  | some s =>
    match step s with
    | .next t => system.set k t
    | .fault _ => system
    | .refused _ => system

end Sys2Proof.Machine
end

