-- ==== Sys2Proof/Machine/Transaction.lean ====
section
/-! DEFINITION. The transaction model of 00_scope R9: `exec : u24 -> RF -> RF x Rsp` as `decode` and then `perform`
on the generic forms (30_encoding R55, R63), and its fold over a run (20_memory R46, 70 R126). It knows neither pins
nor cycles; the claims relate the port of Step.lean to it. `F_WMASK` is an argument (00_scope R7, 70 R128). -/

namespace Sys2Proof.Machine

/-- `perform : Op -> RF -> RF x u16` (00_scope R9) on the generic forms (40_reset R67, 41_get8 R69, 42_get16 R78,
43_set8 R85, 44_set16 R94). -/
def perform (fWmask : Byte) (op : Op) (rf : RegFile) : RegFile × Word :=
  match op with
  | .reset => (RegFile.reset, 0)
  | .get8 r => (rf, zext16 (rf.read8 r))
  | .set8 r v => (rf.write8 fWmask r v, 0)
  | .get16 q => (rf, rf.read16 q)
  | .set16 q v => (rf.write16 fWmask q v, 0)

/-- `exec` of 00_scope R9 on a command word; a word that decodes to nothing is ILLEGAL (60 R103). -/
def execWord (fWmask : Byte) (w : CommandWord) (rf : RegFile) : RegFile × Response :=
  match decodeOp w with
  | some op => ((perform fWmask op rf).1, ⟨false, (perform fWmask op rf).2⟩)
  | none => (rf, ⟨true, 0⟩)

/-- One step of a run: a command word, or the event `Reset` that the reset pin is (70 R115, R126). -/
def applyEvent (fWmask : Byte) (e : Event) (rf : RegFile) : RegFile × Response :=
  match e with
  | .reset => (RegFile.reset, Response.zero)
  | .word w => execWord fWmask w rf

/-- The state after a run: `exec(cn, ... exec(c1, s0).1 ...).1` (20_memory R46). -/
def runEvents (fWmask : Byte) : List Event → RegFile → RegFile
  | [], rf => rf
  | e :: es, rf => runEvents fWmask es (applyEvent fWmask e rf).1

/-- The responses of a run, in order (70 R126). -/
def runResponses (fWmask : Byte) : List Event → RegFile → List Response
  | [], _ => []
  | e :: es, rf => (applyEvent fWmask e rf).2 :: runResponses fWmask es (applyEvent fWmask e rf).1

/-- The run that a schedule of pins is: idle cycles are not steps (30_encoding R66) and a command at a reset edge is
not in the list (70 R117). -/
def eventsOf (inputs : List PortIn) : List Event := inputs.filterMap PortIn.event

end Sys2Proof.Machine
end

