-- ==== Sys2Proof/Safety.lean ====
section
/-! DEFINITION. The terms the claims are stated in: which fields an operation reads and writes (10_state R17), what a
legal run is (60 R105, 70 R128), what a hardware-faithful consumer does (10_state R26), and what the latest write to a
register is (20_memory R46). -/

namespace Sys2Proof.Machine

/-! ### The table of 10_state R17 -/

/-- The ten fields of the register file. -/
inductive Field
  | a | b | c | d | e | f | h | l | sp | pc
deriving DecidableEq, Repr

/-- The value of a field, an 8-bit one zero-extended. -/
def RegFile.field (rf : RegFile) : Field → Word
  | .a => zext16 rf.a
  | .b => zext16 rf.b
  | .c => zext16 rf.c
  | .d => zext16 rf.d
  | .e => zext16 rf.e
  | .f => zext16 rf.f
  | .h => zext16 rf.h
  | .l => zext16 rf.l
  | .sp => rf.sp
  | .pc => rf.pc

/-- Column "read by" of 10_state R17. -/
def Field.readers : Field → List Instr
  | .a => [.getA, .getAF]
  | .b => [.getB, .getBC]
  | .c => [.getC, .getBC]
  | .d => [.getD, .getDE]
  | .e => [.getE, .getDE]
  | .f => [.getF, .getAF]
  | .h => [.getH, .getHL]
  | .l => [.getL, .getHL]
  | .sp => [.getSP]
  | .pc => [.getPC]

/-- Column "written by" of 10_state R17, a setter with its operand zero. -/
def Field.writers : Field → List Instr
  | .a => [.setA 0, .setAF 0, .reset]
  | .b => [.setB 0, .setBC 0, .reset]
  | .c => [.setC 0, .setBC 0, .reset]
  | .d => [.setD 0, .setDE 0, .reset]
  | .e => [.setE 0, .setDE 0, .reset]
  | .f => [.setF 0, .setAF 0, .reset]
  | .h => [.setH 0, .setHL 0, .reset]
  | .l => [.setL 0, .setHL 0, .reset]
  | .sp => [.setSP 0, .reset]
  | .pc => [.setPC 0, .reset]

end Sys2Proof.Machine

namespace Sys2Proof

/-- The operation reads the field. -/
abbrev Instr.Reads (i : Instr) (fld : Machine.Field) : Prop := i.blank ∈ fld.readers

/-- The operation writes the field. -/
abbrev Instr.Writes (i : Instr) (fld : Machine.Field) : Prop := i.blank ∈ fld.writers

/-! ### The consumer's duty -/

/-- What a hardware-faithful consumer may write: F only with a zero low nibble (10_state R26). -/
def Op.faithful : Op → Bool
  | .set8 .f v => Machine.lowNibble v == 0
  | .set16 .af v => Machine.lowNibble (loByte v) == 0
  | _ => true

/-! ### The latest write to a register (20_memory R46) -/

/-- What an operation stores in an 8-bit register, if it writes it: by its `set`, the `set` of its pair, or `reset`
(41_get8 R69). -/
def Op.stores8 (fWmask : Byte) (r : Reg8) (op : Op) : Option Byte :=
  match op with
  | .reset => some (Machine.RegFile.reset.read8 r)
  | .set8 r' v => if r' = r then some (if r = .f then v &&& fWmask else v) else none
  | .set16 .af v =>
    match r with
    | .a => some (hiByte v)
    | .f => some (loByte v &&& fWmask)
    | _ => none
  | .set16 .bc v =>
    match r with
    | .b => some (hiByte v)
    | .c => some (loByte v)
    | _ => none
  | .set16 .de v =>
    match r with
    | .d => some (hiByte v)
    | .e => some (loByte v)
    | _ => none
  | .set16 .hl v =>
    match r with
    | .h => some (hiByte v)
    | .l => some (loByte v)
    | _ => none
  | _ => none

/-- What an operation stores in SP, if it writes it. -/
def Op.storesSP (op : Op) : Option Word :=
  match op with
  | .reset => some 0xFFFE
  | .set16 .sp v => some v
  | _ => none

/-- What an operation stores in PC, if it writes it. -/
def Op.storesPC (op : Op) : Option Word :=
  match op with
  | .reset => some 0x0100
  | .set16 .pc v => some v
  | _ => none

end Sys2Proof

namespace Sys2Proof.Machine

/-- What an event of a run stores in an 8-bit register, if it writes it. An ILLEGAL word writes nothing (60 R103). -/
def Event.stores8 (fWmask : Byte) (r : Reg8) : Event → Option Byte
  | .reset => some (RegFile.reset.read8 r)
  | .word w => (decodeOp w).bind (Op.stores8 fWmask r)

/-- What an event of a run stores in SP, if it writes it. -/
def Event.storesSP : Event → Option Word
  | .reset => some 0xFFFE
  | .word w => (decodeOp w).bind Op.storesSP

/-- What an event of a run stores in PC, if it writes it. -/
def Event.storesPC : Event → Option Word
  | .reset => some 0x0100
  | .word w => (decodeOp w).bind Op.storesPC

/-- The value the latest writer in a run leaves, if the run has a writer. -/
def latest {α β : Type} (stores : α → Option β) (run : List α) : Option β := run.reverse.findSome? stores

/-! ### Legal and faithful consumers -/

/-- An event of a legal run asks for no ILLEGAL command (60 R105). -/
def Event.legal : Event → Bool
  | .reset => true
  | .word w => (decodeOp w).isSome

/-- An event in which the consumer keeps its duty about F (10_state R26, 70 R127). -/
def Event.faithful : Event → Bool
  | .reset => true
  | .word w => (decodeOp w).all Op.faithful

/-- The low nibble of F is zero, and the consumer keeps its duty from now on (10_state R26, R27; 70 R120). -/
abbrev State.CanonicalInv (s : State) : Prop := s.rf.Canonical ∧ ∀ e ∈ eventsOf s.inputs, e.faithful = true

/-- The latest response is no error, and no ILLEGAL word is to come (60 R101, R105). -/
abbrev State.LegalInv (s : State) : Prop := s.rsp.err = false ∧ ∀ e ∈ eventsOf s.inputs, e.legal = true

/-! ### Cycles one after another -/

/-- The machine after `k` cycles (70 R126); it is the host's run of `core`, as Laws/Step.lean shows. -/
def runCycles : Nat → State → Host.Outcome State Fault Refusal
  | 0, s => .next s
  | k + 1, s =>
    match step s with
    | .next t => runCycles k t
    | .fault r => .fault r
    | .refused r => .refused r

/-! ### The consumer's next command -/

/-- `s` with the command word `w` on the port in the next cycle (30_encoding R65). -/
def State.present (w : CommandWord) (s : State) : State := { s with inputs := PortIn.command w :: s.inputs }

/-- The registers of a pair, the high byte first (10_state R19); SP and PC have no halves. -/
def halves : Reg16 → Option (Reg8 × Reg8)
  | .sp => none
  | .pc => none
  | .af => some (.a, .f)
  | .bc => some (.b, .c)
  | .de => some (.d, .e)
  | .hl => some (.h, .l)

end Sys2Proof.Machine
end

