-- ==== Sys2Proof/Certificates/Slice0/Obligations.lean ====
section
/-! DEFINITION. The statements about the register file. Each docstring names the rule of spec/ it formalises, or, where
it rests on a choice of the model, the log entry. -/

open Sys2Proof Sys2Proof.Machine

namespace Sys2Proof.Claims

/-! ### The shape of one operation's rule (00_scope R11)

An operation's statement says its effect as a next state of exec, its command words, the words of its group and select
id that are ILLEGAL, and how it is seen by the operations on the same pair. -/

/-- A GET8 operation (41_get8 R70 to R77). `value` is the register, `word` the command word, `setPair` the write of the
register's pair and `half` what that write leaves in the register. -/
def ReadRule8 (i : Instr) (word : CommandWord) (value : RegFile → Byte) (set : Byte → Instr) (setPair : Word → Instr)
    (half : Word → Byte) : Prop :=
  (∀ s, exec i s = .next { s with rsp := ⟨false, zext16 (value s.rf)⟩ }) ∧
  (∀ v : Byte, (zext16 v).toNat = v.toNat) ∧
  decode word = .op i ∧
  (∀ (w : CommandWord) (s : State), opField w = opField word → selField w = selField word → dataField w ≠ 0 →
    decode w = .illegal .badGet8 ∧ step (s.present w) = .next { s with rsp := ⟨true, 0⟩ }) ∧
  (∀ v s t, exec (set v) s = .next t → exec i t = .next { t with rsp := ⟨false, zext16 v⟩ }) ∧
  (∀ v s t, exec (setPair v) s = .next t → exec i t = .next { t with rsp := ⟨false, zext16 (half v)⟩ })

/-- A GET16 operation on SP or PC (42_get16 R79, R80). -/
def ReadRule16 (i : Instr) (word : CommandWord) (value : RegFile → Word) : Prop :=
  (∀ s, exec i s = .next { s with rsp := ⟨false, value s.rf⟩ }) ∧
  decode word = .op i ∧
  (∀ (w : CommandWord) (s : State), opField w = opField word → selField w = selField word → dataField w ≠ 0 →
    decode w = .illegal .badGet16 ∧ step (s.present w) = .next { s with rsp := ⟨true, 0⟩ })

/-- A GET16 operation on a pair (42_get16 R81 to R84): the response is `256 * hi + lo`, both halves from the same
state, and it is what writing the halves in either order makes it. -/
def ReadRulePair (i : Instr) (word : CommandWord) (hi lo : RegFile → Byte) (setHi setLo : Byte → Instr) : Prop :=
  (∀ s, ∃ d : Word, d.toNat = 256 * (hi s.rf).toNat + (lo s.rf).toNat ∧ hiByte d = hi s.rf ∧ loByte d = lo s.rf ∧
    exec i s = .next { s with rsp := ⟨false, d⟩ }) ∧
  decode word = .op i ∧
  (∀ (w : CommandWord) (s : State), opField w = opField word → selField w = selField word → dataField w ≠ 0 →
    decode w = .illegal .badGet16 ∧ step (s.present w) = .next { s with rsp := ⟨true, 0⟩ }) ∧
  (∀ a b s t u, exec (setHi a) s = .next t → exec (setLo b) t = .next u →
    exec i u = .next { u with rsp := ⟨false, pair a b⟩ }) ∧
  (∀ a b s t u, exec (setLo b) s = .next t → exec (setHi a) t = .next u →
    exec i u = .next { u with rsp := ⟨false, pair a b⟩ })

/-- A SET8 operation (43_set8 R86 to R93). `upd` is the write of the one field, `base` the command word with `v` = 0,
`getPair` the read of the register's pair and `seen` what it then responds. -/
def WriteRule8 (mk : Byte → Instr) (base : CommandWord) (upd : Byte → RegFile → RegFile) (get getPair : Instr)
    (seen : Byte → RegFile → Word) : Prop :=
  (∀ v s, exec (mk v) s = .next { s with rf := upd v s.rf, rsp := ⟨false, 0⟩ }) ∧
  (∀ v : Byte, decode (base ||| v.setWidth 24) = .op (mk v)) ∧
  (∀ (w : CommandWord) (s : State), opField w = opField base → selField w = selField base → hiByte (dataField w) ≠ 0 →
    decode w = .illegal .badSet8 ∧ step (s.present w) = .next { s with rsp := ⟨true, 0⟩ }) ∧
  (∀ v s t, exec (mk v) s = .next t → exec get t = .next { t with rsp := ⟨false, zext16 v⟩ }) ∧
  (∀ v s t, exec (mk v) s = .next t → exec getPair t = .next { t with rsp := ⟨false, seen v s.rf⟩ })

/-- A SET16 operation on SP or PC (44_set16 R95, R96). Every word of its group and id is legal. -/
def WriteRule16 (mk : Word → Instr) (base : CommandWord) (upd : Word → RegFile → RegFile) (get : Instr) : Prop :=
  (∀ v s, exec (mk v) s = .next { s with rf := upd v s.rf, rsp := ⟨false, 0⟩ }) ∧
  (∀ v : Word, decode (base ||| v.setWidth 24) = .op (mk v)) ∧
  (∀ w, opField w = opField base → selField w = selField base → decode w = .op (mk (dataField w))) ∧
  (∀ v s t, exec (mk v) s = .next t → exec get t = .next { t with rsp := ⟨false, v⟩ })

/-- A SET16 operation on a pair (44_set16 R97 to R100): as for SP and PC; it equals the two 8-bit writes in either
order, and writing back what its pair holds leaves the register file as it is. -/
def WriteRulePair (mk : Word → Instr) (base : CommandWord) (upd : Word → RegFile → RegFile) (get : Instr)
    (setHi setLo : Byte → Instr) (value : RegFile → Word) : Prop :=
  WriteRule16 mk base upd get ∧
  (∀ v s, ∃ t, exec (setHi (hiByte v)) s = .next t ∧ exec (setLo (loByte v)) t = exec (mk v) s) ∧
  (∀ v s, ∃ t, exec (setLo (loByte v)) s = .next t ∧ exec (setHi (hiByte v)) t = exec (mk v) s) ∧
  (∀ s, exec (mk (value s.rf)) s = .next { s with rsp := ⟨false, 0⟩ })

end Sys2Proof.Claims

open Sys2Proof.Claims

/-! ### Encoding -/

/-- 30_encoding R55: "`encode` ... is its inverse on `Op`", on the 29 named operations at every operand value. -/
def Obligations.DecodeOfEncodeIsTheOperation : Prop :=
  ∀ i : Instr, decode (encode i) = .op i

/-- 30_encoding R55: the five arms of `decode`, each exactly; it is injective on the words it accepts, and `encode` is
its inverse. -/
def Obligations.DecoderAcceptsExactlyItsFiveArms : Prop :=
  (∀ w, decodeOp w = some .reset ↔ (opField w).toNat = 1 ∧ selField w = 0 ∧ dataField w = 0) ∧
  (∀ w r, decodeOp w = some (.get8 r) ↔ (opField w).toNat = 2 ∧ r8Of (selField w) = some r ∧ dataField w = 0) ∧
  (∀ w r v, decodeOp w = some (.set8 r v) ↔
    (opField w).toNat = 3 ∧ r8Of (selField w) = some r ∧ hiByte (dataField w) = 0 ∧ loByte (dataField w) = v) ∧
  (∀ w q, decodeOp w = some (.get16 q) ↔ (opField w).toNat = 4 ∧ r16Of (selField w) = some q ∧ dataField w = 0) ∧
  (∀ w q v, decodeOp w = some (.set16 q v) ↔
    (opField w).toNat = 5 ∧ r16Of (selField w) = some q ∧ dataField w = v) ∧
  (∀ sel, (r8Of sel).isSome = true ↔ sel.toNat ≤ 7) ∧
  (∀ sel, (r16Of sel).isSome = true ↔ sel.toNat ≤ 5) ∧
  (∀ w w' op, decodeOp w = some op → decodeOp w' = some op → w = w') ∧
  (∀ w op, decodeOp w = some op ↔ encodeOp op = w)

/-- 30_encoding R58: a word is ILLEGAL exactly when one of the six classes holds of it, the class the decoder names is
the one that holds, and no two hold of one word. -/
def Obligations.IllegalWordsAreTheSixClasses : Prop :=
  (∀ w, decodeOp w = none ↔ ∃ c : IllegalClass, c.Holds w) ∧
  (∀ w c, decode w = .illegal c ↔ IllegalClass.Holds w c) ∧
  (∀ w c c', IllegalClass.Holds w c → IllegalClass.Holds w c' → c = c')

/-- 30_encoding R58: "Legal words: 1 + 8 + 2,048 + 6 + 393,216 = 395,279; ILLEGAL words: 16,381,937". -/
def Obligations.CountOfLegalWords : Prop :=
  Nat.card { w : CommandWord // decodeOp w ≠ none } = 395279 ∧
  Nat.card { w : CommandWord // decodeOp w = none } = 16381937

/-- 30_encoding R58, column "Number of words": how many words each class has. -/
def Obligations.CountOfEachIllegalClass : Prop :=
  Nat.card { w : CommandWord // IllegalClass.Holds w .reservedOp } = 11534336 ∧
  Nat.card { w : CommandWord // IllegalClass.Holds w .resetWithOperand } = 1048575 ∧
  Nat.card { w : CommandWord // IllegalClass.Holds w .badGet8 } = 1048568 ∧
  Nat.card { w : CommandWord // IllegalClass.Holds w .badSet8 } = 1046528 ∧
  Nat.card { w : CommandWord // IllegalClass.Holds w .badGet16 } = 1048570 ∧
  Nat.card { w : CommandWord // IllegalClass.Holds w .badSet16 } = 655360

/-- 30_encoding R54, R57: "a word `w` spells the row's operation exactly when `w & mask = match`", for the 29 rows; so
no word is spelled by two rows. -/
def Obligations.TableRowsSpellTheirOperations : Prop :=
  opcodeTable.length = 29 ∧
  (∀ i : Instr, ∃ row ∈ opcodeTable, row.op = i.blank) ∧
  (∀ row ∈ opcodeTable, ∀ w, row.Spells w ↔ ∃ i, decode w = .op i ∧ i.blank = row.op) ∧
  (∀ row ∈ opcodeTable, ∀ row' ∈ opcodeTable, ∀ w, row.Spells w → row'.Spells w → row = row')

/-- 30_encoding R57, words written out from its map: one word of every group at least, and words of R58's classes. -/
def Obligations.WordsOfTheMapDecode : Prop :=
  decode 0x100000#24 = .op .reset ∧
  decode 0x270000#24 = .op .getL ∧
  decode 0x3500FF#24 = .op (.setF 0xFF) ∧
  decode 0x450000#24 = .op .getHL ∧
  decode 0x53ABCD#24 = .op (.setBC 0xABCD) ∧
  decode 0x000000#24 = .illegal .reservedOp ∧
  decode 0x110000#24 = .illegal .resetWithOperand ∧
  decode 0x280000#24 = .illegal .badGet8 ∧
  decode 0x350100#24 = .illegal .badSet8 ∧
  decode 0x408000#24 = .illegal .badGet16 ∧
  decode 0x56ABCD#24 = .illegal .badSet16

/-! ### The port -/

/-- 00_scope R9, 30_encoding R65: in a cycle with `rst = 0`, `cmd_valid = 1` and a word that decodes to `i`, the step
is exec of `i` with the cycle taken off the list. -/
def Obligations.StepPerformsTheDecodedOperation : Prop :=
  ∀ (s : State) (w : CommandWord) (i : Instr) (rest : List PortIn),
    s.inputs = ⟨false, true, w⟩ :: rest → decode w = .op i → step s = exec i { s with inputs := rest }

/-- 60_exceptions R103: a word that decodes to nothing leaves all ten fields and answers `err = 1`, `data = 0`; a SET8
word with a wide value, a SET16 word with `SEL` = 6 and a RESET word with a stray bit are such words. -/
def Obligations.IllegalWordChangesNothing : Prop :=
  (∀ (w : CommandWord) (s : State), decodeOp w = none → step (s.present w) = .next { s with rsp := ⟨true, 0⟩ }) ∧
  (∀ w (m : Byte) (rf : RegFile), decodeOp w = none → execWord m w rf = (rf, ⟨true, 0⟩)) ∧
  (∀ w, (opField w).toNat = 3 → hiByte (dataField w) ≠ 0 → decodeOp w = none) ∧
  (∀ w, (opField w).toNat = 5 → (selField w).toNat = 6 → decodeOp w = none) ∧
  (∀ w, (opField w).toNat = 1 → w ≠ 0x100000#24 → decodeOp w = none)

/-- 60_exceptions R104: "The command after an ILLEGAL word is decoded and performed exactly as if the ILLEGAL word had
not been issued": from one cycle later on, the machine is where it would have been without the word. -/
def Obligations.IllegalWordLeavesNoTrace : Prop :=
  ∀ (w : CommandWord) (s : State) (k : Nat), decodeOp w = none → runCycles (k + 2) (s.present w) = runCycles (k + 1) s

/-- 70_reset_and_hazards R117: with `rst = 1` and a command at one edge the state becomes `RESET_STATE`, the command is
not performed nor flagged, and it is not in the command list. -/
def Obligations.ResetPinBeatsACommand : Prop :=
  ∀ (s : State) (valid : Bool) (w : CommandWord) (rest : List PortIn),
    s.inputs = ⟨true, valid, w⟩ :: rest →
      step s = .next { rf := RegFile.reset, rsp := ⟨false, 0⟩, inputs := rest } ∧
      eventsOf s.inputs = .reset :: eventsOf rest

/-- 70_reset_and_hazards R115, R116: the pin and the command `reset` leave the same register file, and what they leave
does not depend on the state before. -/
def Obligations.ResetPinAndCommandAgree : Prop :=
  ∀ (s s' : State) (valid : Bool) (w : CommandWord), ∃ t t' : State,
    step { s with inputs := ⟨true, valid, w⟩ :: s.inputs } = .next t ∧ exec .reset s' = .next t' ∧
    t.rf = t'.rf ∧ t.rf = State.reset.rf ∧ t.rsp = t'.rsp

/-- 30_encoding R66: an idle cycle leaves the state and responds zero whatever is on `cmd`, it is no element of the
command list, and no command word acts as an idle cycle in every state. -/
def Obligations.IdleCycleHoldsTheState : Prop :=
  (∀ (s : State) (w : CommandWord) (rest : List PortIn), s.inputs = ⟨false, false, w⟩ :: rest →
    step s = .next { s with rsp := ⟨false, 0⟩, inputs := rest } ∧ eventsOf s.inputs = eventsOf rest) ∧
  (∀ w : CommandWord, ∃ s : State, step (s.present w) ≠ .next { s with rsp := ⟨false, 0⟩ })

/-- The model's choice, log entry 1: when no cycle is left on the list the consumer
has stopped, and the port idles. -/
def Obligations.StoppedConsumerLeavesThePortIdle : Prop :=
  ∀ s : State, s.inputs = [] → step s = .next { s with rsp := ⟨false, 0⟩ }

/-- 10_state R32, 60_exceptions R104: the response lines of one cycle influence no later one. That State holds the
lines is the model's choice: log entry 2. -/
def Obligations.ResponseLinesAreNeverRead : Prop :=
  ∀ (s : State) (r : Response), step { s with rsp := r } = step s

/-- 60_exceptions R101: every operation, in every state, answers a next state with `err = 0`. That no step stops
follows from more than R101: the cycle of an ILLEGAL word is R103's, of the reset pin 70_reset_and_hazards R115's, of an
idle port 30_encoding R66's, and that a step with no cycle left on the list goes on is the model's choice, log entry 1. -/
def Obligations.NoOperationFails : Prop :=
  (∀ i s, ∃ t, exec i s = .next t ∧ t.rsp.err = false) ∧
  (∀ s, ∃ t, step s = .next t)

/-- 60_exceptions R102: `err = 1` is the answer to a word that decodes to nothing and to no other; it comes with data 0
and an unchanged register file, the same for all six classes. -/
def Obligations.ErrMeansIllegalWord : Prop :=
  ∀ (w : CommandWord) (s t : State), step (s.present w) = .next t →
    (t.rsp.err = true ↔ ∃ c, decode w = .illegal c) ∧
    (t.rsp.err = true → t.rsp.data = 0 ∧ t.rf = s.rf)

/-- 30_encoding R60: the response to every command word, computed from the state before the step. -/
def Obligations.ResponseOfEveryCommand : Prop :=
  ∀ (w : CommandWord) (s t : State), step (s.present w) = .next t →
    (∀ r, decodeOp w = some (.get8 r) → t.rsp = ⟨false, zext16 (s.rf.read8 r)⟩ ∧ t.rf = s.rf) ∧
    (∀ q, decodeOp w = some (.get16 q) → t.rsp = ⟨false, s.rf.read16 q⟩ ∧ t.rf = s.rf) ∧
    (∀ r v, decodeOp w = some (.set8 r v) → t.rsp = ⟨false, 0⟩) ∧
    (∀ q v, decodeOp w = some (.set16 q v) → t.rsp = ⟨false, 0⟩) ∧
    (decodeOp w = some .reset → t.rsp = ⟨false, 0⟩) ∧
    (decodeOp w = none → t.rsp = ⟨true, 0⟩)

/-! ### Reset -/

/-- 10_state R33: the reset state, field by field. -/
def Obligations.ResetStateIsTheTable : Prop :=
  State.reset.rf.a = 0x01 ∧ State.reset.rf.b = 0x00 ∧ State.reset.rf.c = 0x13 ∧ State.reset.rf.d = 0x00 ∧
  State.reset.rf.e = 0xD8 ∧ State.reset.rf.f = 0xB0 ∧ State.reset.rf.h = 0x01 ∧ State.reset.rf.l = 0x4D ∧
  State.reset.rf.sp = 0xFFFE ∧ State.reset.rf.pc = 0x0100

/-- 10_state R34, which the spec derives from R20, R24 and R33: the pairs and the flags of the reset state. The bit of
each flag is the spec's decision D9 (log entry 11). -/
def Obligations.ResetStateViews : Prop :=
  State.reset.rf.read16 .af = 0x01B0 ∧ State.reset.rf.read16 .bc = 0x0013 ∧
  State.reset.rf.read16 .de = 0x00D8 ∧ State.reset.rf.read16 .hl = 0x014D ∧
  State.reset.rf.flagZ = true ∧ State.reset.rf.flagN = false ∧
  State.reset.rf.flagH = true ∧ State.reset.rf.flagC = true ∧ lowNibble State.reset.rf.f = 0

/-- 40_reset R68: `reset` writes all ten fields in one step whatever they held, its word is 0x100000, any other word
with `OP` = 1 is ILLEGAL, and after an ILLEGAL word it does the same. -/
def Obligations.ResetRestoresTheResetState : Prop :=
  (∀ s, exec .reset s = .next { s with
    rf := { a := 0x01, b := 0x00, c := 0x13, d := 0x00, e := 0xD8, f := 0xB0, h := 0x01, l := 0x4D,
            sp := 0xFFFE, pc := 0x0100 },
    rsp := ⟨false, 0⟩ }) ∧
  decode 0x100000#24 = .op .reset ∧
  (∀ (w : CommandWord) (s : State), (opField w).toNat = 1 → w ≠ 0x100000#24 →
    decode w = .illegal .resetWithOperand ∧ step (s.present w) = .next { s with rsp := ⟨true, 0⟩ }) ∧
  (∀ s t, exec .reset s = .next t → t.rf.flagZ = true ∧ t.rf.flagN = false ∧ t.rf.flagH = true ∧
    t.rf.flagC = true ∧ lowNibble t.rf.f = 0) ∧
  (∀ (w : CommandWord) (s t : State), decodeOp w = none → step (s.present w) = .next t → exec .reset t = exec .reset s)

/-! ### The operations -/

/-- 41_get8 R70 to R77: the eight 8-bit reads; `getF` masks nothing and its data bits 7 to 4 are Z, N, H, C. -/
def Obligations.Get8Operations : Prop :=
  ReadRule8 .getA 0x200000#24 (·.a) .setA .setAF hiByte ∧
  ReadRule8 .getB 0x210000#24 (·.b) .setB .setBC hiByte ∧
  ReadRule8 .getC 0x220000#24 (·.c) .setC .setBC loByte ∧
  ReadRule8 .getD 0x230000#24 (·.d) .setD .setDE hiByte ∧
  ReadRule8 .getE 0x240000#24 (·.e) .setE .setDE loByte ∧
  ReadRule8 .getF 0x250000#24 (·.f) .setF .setAF (fun v => loByte v &&& Config.fWmask) ∧
  ReadRule8 .getH 0x260000#24 (·.h) .setH .setHL hiByte ∧
  ReadRule8 .getL 0x270000#24 (·.l) .setL .setHL loByte ∧
  (∀ s t, exec .getF s = .next t → t.rsp.data.getLsbD 7 = s.rf.flagZ ∧ t.rsp.data.getLsbD 6 = s.rf.flagN ∧
    t.rsp.data.getLsbD 5 = s.rf.flagH ∧ t.rsp.data.getLsbD 4 = s.rf.flagC) ∧
  (∀ t, exec .getF State.reset = .next t → t.rsp.data &&& 0x0F = 0)

/-- 42_get16 R79 to R84: the six 16-bit reads; in the response of `getAF` the flags stand at bits 7 to 4. -/
def Obligations.Get16Operations : Prop :=
  ReadRule16 .getSP 0x400000#24 (·.sp) ∧
  ReadRule16 .getPC 0x410000#24 (·.pc) ∧
  ReadRulePair .getAF 0x420000#24 (·.a) (·.f) .setA .setF ∧
  ReadRulePair .getBC 0x430000#24 (·.b) (·.c) .setB .setC ∧
  ReadRulePair .getDE 0x440000#24 (·.d) (·.e) .setD .setE ∧
  ReadRulePair .getHL 0x450000#24 (·.h) (·.l) .setH .setL ∧
  (∀ s t, exec .getAF s = .next t → t.rsp.data.getLsbD 7 = s.rf.flagZ ∧ t.rsp.data.getLsbD 6 = s.rf.flagN ∧
    t.rsp.data.getLsbD 5 = s.rf.flagH ∧ t.rsp.data.getLsbD 4 = s.rf.flagC ∧
    (s.rf.Canonical → t.rsp.data.extractLsb' 0 4 = 0#4))

/-- 43_set8 R86 to R93: the eight 8-bit writes; `setF` writes the four flags and the low nibble from its operand, and
under `F_WMASK = 0xF0` it would drop the low nibble. -/
def Obligations.Set8Operations : Prop :=
  WriteRule8 .setA 0x300000#24 (fun v rf => { rf with a := v }) .getA .getAF (fun v rf => pair v rf.f) ∧
  WriteRule8 .setB 0x310000#24 (fun v rf => { rf with b := v }) .getB .getBC (fun v rf => pair v rf.c) ∧
  WriteRule8 .setC 0x320000#24 (fun v rf => { rf with c := v }) .getC .getBC (fun v rf => pair rf.b v) ∧
  WriteRule8 .setD 0x330000#24 (fun v rf => { rf with d := v }) .getD .getDE (fun v rf => pair v rf.e) ∧
  WriteRule8 .setE 0x340000#24 (fun v rf => { rf with e := v }) .getE .getDE (fun v rf => pair rf.d v) ∧
  WriteRule8 .setF 0x350000#24 (fun v rf => { rf with f := v }) .getF .getAF (fun v rf => pair rf.a v) ∧
  WriteRule8 .setH 0x360000#24 (fun v rf => { rf with h := v }) .getH .getHL (fun v rf => pair v rf.l) ∧
  WriteRule8 .setL 0x370000#24 (fun v rf => { rf with l := v }) .getL .getHL (fun v rf => pair rf.h v) ∧
  (∀ v s t, exec (.setF v) s = .next t → t.rf.flagZ = v.getLsbD 7 ∧ t.rf.flagN = v.getLsbD 6 ∧
    t.rf.flagH = v.getLsbD 5 ∧ t.rf.flagC = v.getLsbD 4 ∧ lowNibble t.rf.f = lowNibble v ∧
    (t.rf.Canonical ↔ lowNibble v = 0)) ∧
  (∀ v rf, (execWord 0xF0 (encode (.setF v)) rf).1 = { rf with f := v &&& 0xF0 } ∧
    ((v &&& 0xF0#8) = v ↔ lowNibble v = 0))

/-- 44_set16 R95 to R100: the six 16-bit writes; `setAF` writes the four flags and the low nibble from its operand, and
under `F_WMASK = 0xF0` it would drop the low nibble. -/
def Obligations.Set16Operations : Prop :=
  WriteRule16 .setSP 0x500000#24 (fun v rf => { rf with sp := v }) .getSP ∧
  WriteRule16 .setPC 0x510000#24 (fun v rf => { rf with pc := v }) .getPC ∧
  WriteRulePair .setAF 0x520000#24 (fun v rf => { rf with a := hiByte v, f := loByte v }) .getAF .setA .setF
    (fun rf => pair rf.a rf.f) ∧
  WriteRulePair .setBC 0x530000#24 (fun v rf => { rf with b := hiByte v, c := loByte v }) .getBC .setB .setC
    (fun rf => pair rf.b rf.c) ∧
  WriteRulePair .setDE 0x540000#24 (fun v rf => { rf with d := hiByte v, e := loByte v }) .getDE .setD .setE
    (fun rf => pair rf.d rf.e) ∧
  WriteRulePair .setHL 0x550000#24 (fun v rf => { rf with h := hiByte v, l := loByte v }) .getHL .setH .setL
    (fun rf => pair rf.h rf.l) ∧
  (∀ v s t, exec (.setAF v) s = .next t → t.rf.flagZ = v.getLsbD 7 ∧ t.rf.flagN = v.getLsbD 6 ∧
    t.rf.flagH = v.getLsbD 5 ∧ t.rf.flagC = v.getLsbD 4 ∧ lowNibble t.rf.f = v.extractLsb' 0 4) ∧
  (∀ v rf, (execWord 0xF0 (encode (.setAF v)) rf).1 = { rf with a := hiByte v, f := loByte v &&& 0xF0 })

/-- 00_scope R9, 30_encoding R63: a named operation is its generic form, on state and response. -/
def Obligations.NamedOperationsAreTheirGenericForms : Prop :=
  (∀ i s, exec i s = .next { s with
    rf := (perform Config.fWmask i.toOp s.rf).1, rsp := ⟨false, (perform Config.fWmask i.toOp s.rf).2⟩ }) ∧
  (∀ op : Op, op.toInstr.toOp = op) ∧
  (∀ (w : CommandWord) (s : State), step (s.present w) = .next { s with
    rf := (execWord Config.fWmask w s.rf).1, rsp := (execWord Config.fWmask w s.rf).2 })

/-! ### The whole register file -/

/-- The table of 10_state R17, which the spec derives from R68 to R100: a field that the table does not list as
written keeps its value; the response and the written fields depend only on the fields listed as read; the reset pin
writes all ten. -/
def Obligations.FieldsAreReadAndWrittenAsTheTableSays : Prop :=
  (∀ i s t fld, exec i s = .next t → ¬ Instr.Writes i fld → t.rf.field fld = s.rf.field fld) ∧
  (∀ i s s' t t', exec i s = .next t → exec i s' = .next t' →
    (∀ fld, Instr.Reads i fld → s.rf.field fld = s'.rf.field fld) →
    t.rsp = t'.rsp ∧ ∀ fld, Instr.Writes i fld → t.rf.field fld = t'.rf.field fld) ∧
  (∀ (s : State) fld, s.resetPin.rf.field fld = RegFile.reset.field fld) ∧
  (∀ fld, (∃ i, Instr.Reads i fld) ∧ ∃ i, i ≠ .reset ∧ Instr.Writes i fld)

/-- 10_state R28: a write changes only its own fields and a read changes none; at the port, a field that changes is
written by the event of that very cycle. -/
def Obligations.FieldIndependence : Prop :=
  (∀ i s t, exec i s = .next t → (∀ fld, ¬ Instr.Writes i fld) → t.rf = s.rf) ∧
  (∀ i s t fld, exec i s = .next t → t.rf.field fld ≠ s.rf.field fld → Instr.Writes i fld) ∧
  (∀ s t fld, step s = .next t → t.rf.field fld ≠ s.rf.field fld →
    ∃ p rest, s.inputs = p :: rest ∧
      (p.event = some .reset ∨ ∃ w i, p.event = some (.word w) ∧ decode w = .op i ∧ Instr.Writes i fld))

/-- 10_state R25: F is written by the reset pin, `reset`, `setF` and `setAF`, and changes in a step only by them; only
`getF` and `getAF` read it; no operation is conditional on a flag. -/
def Obligations.FlagsChangeOnlyByTheirWriters : Prop :=
  (∀ s : State, ∃ t u, exec .reset s = .next t ∧ t.rf.f = 0xB0 ∧
    step { s with inputs := ⟨true, false, 0⟩ :: s.inputs } = .next u ∧ u.rf.f = 0xB0) ∧
  (∀ v s, ∃ t, exec (.setF v) s = .next t ∧ t.rf.f = v) ∧
  (∀ v s, ∃ t, exec (.setAF v) s = .next t ∧ t.rf.f = loByte v) ∧
  (∀ s t, step s = .next t → t.rf.f ≠ s.rf.f →
    ∃ p rest, s.inputs = p :: rest ∧ (p.rst = true ∨ (p.cmdValid = true ∧
      (decode p.cmd = .op .reset ∨ (∃ v, decode p.cmd = .op (.setF v)) ∨ ∃ v, decode p.cmd = .op (.setAF v))))) ∧
  (∀ i s g t t', exec i s = .next t → exec i { s with rf := { s.rf with f := g } } = .next t' →
    { t'.rf with f := t.rf.f } = t.rf ∧ (i ≠ .getF → i ≠ .getAF → t'.rsp = t.rsp))

/-- 10_state R15, R16: SP changes only by `setSP`, PC only by `setPC`, and both by reset; the block never advances PC,
and PC does not select the next command. -/
def Obligations.StackPointerAndProgramCounterAreData : Prop :=
  (∀ s t, step s = .next t → t.rf.sp ≠ s.rf.sp →
    ∃ p rest, s.inputs = p :: rest ∧ (p.rst = true ∨ (p.cmdValid = true ∧
      (decode p.cmd = .op .reset ∨ ∃ v, decode p.cmd = .op (.setSP v))))) ∧
  (∀ s t, step s = .next t → t.rf.pc ≠ s.rf.pc →
    ∃ p rest, s.inputs = p :: rest ∧ (p.rst = true ∨ (p.cmdValid = true ∧
      (decode p.cmd = .op .reset ∨ ∃ v, decode p.cmd = .op (.setPC v))))) ∧
  (∀ s v t t', step s = .next t → step { s with rf := { s.rf with pc := v } } = .next t' →
    t'.inputs = t.inputs ∧ { t'.rf with pc := t.rf.pc } = t.rf)

/-- 10_state R22, 20_memory R41, both derived by the spec from R20, R21 and R40: a pair is a view of its halves, for
every `F_WMASK`: the halves written one by one are read as the pair, the pair written is read half by half, and with
every bit of F stored, writing back what the pair holds changes nothing. -/
def Obligations.PairsAreViewsOfTheirHalves : Prop :=
  (∀ (m : Byte) q hi lo (a b : Byte) (rf : RegFile), halves q = some (hi, lo) →
    ((rf.write8 m hi a).write8 m lo b).read16 q = pair a (if lo = .f then b &&& m else b) ∧
    (rf.write8 m hi a).write8 m lo b = (rf.write8 m lo b).write8 m hi a) ∧
  (∀ (m : Byte) q hi lo (v : Word) (rf : RegFile), halves q = some (hi, lo) →
    (rf.write16 m q v).read8 hi = hiByte v ∧
    (rf.write16 m q v).read8 lo = if lo = .f then loByte v &&& m else loByte v) ∧
  (∀ q (rf : RegFile), rf.write16 0xFF q (rf.read16 q) = rf)

/-- 10_state R29: a set value is what the get responds, at once and after any events that do not write the register;
for F and AF through `F_WMASK`. -/
def Obligations.SetValueIsReturnedUntilTheNextWrite : Prop :=
  (∀ (m : Byte) r (v : Byte) (rf : RegFile) (es : List Event), (∀ e ∈ es, e.stores8 m r = none) →
    (execWord m (encodeOp (.get8 r)) (runEvents m (.word (encodeOp (.set8 r v)) :: es) rf)).2 =
      ⟨false, zext16 (if r = .f then v &&& m else v)⟩) ∧
  (∀ (m : Byte) q hi lo (v : Word) (rf : RegFile) (es : List Event), halves q = some (hi, lo) →
    (∀ e ∈ es, e.stores8 m hi = none ∧ e.stores8 m lo = none) →
    (execWord m (encodeOp (.get16 q)) (runEvents m (.word (encodeOp (.set16 q v)) :: es) rf)).2 =
      ⟨false, pair (hiByte v) (if lo = .f then loByte v &&& m else loByte v)⟩) ∧
  (∀ (m : Byte) (v : Word) (rf : RegFile) (es : List Event), (∀ e ∈ es, e.storesSP = none) →
    (execWord m (encodeOp (.get16 .sp)) (runEvents m (.word (encodeOp (.set16 .sp v)) :: es) rf)).2 = ⟨false, v⟩) ∧
  (∀ (m : Byte) (v : Word) (rf : RegFile) (es : List Event), (∀ e ∈ es, e.storesPC = none) →
    (execWord m (encodeOp (.get16 .pc)) (runEvents m (.word (encodeOp (.set16 .pc v)) :: es) rf)).2 = ⟨false, v⟩) ∧
  (∀ v : Word, pair (hiByte v) (loByte v &&& 0xFF) = v)

/-- 20_memory R43: an operation done twice in a row leaves what it leaves when done once, and responds the same. -/
def Obligations.OperationsAreIdempotent : Prop :=
  ∀ i s t, exec i s = .next t → exec i t = .next t

/-- 70_reset_and_hazards R123, which the spec derives from R122 and R28: last writer wins, field by field. -/
def Obligations.LastWriterWins : Prop :=
  (∀ r (v w : Byte) s t, exec (Op.set8 r v).toInstr s = .next t →
    exec (Op.set8 r w).toInstr t = exec (Op.set8 r w).toInstr s) ∧
  (∀ q (v w : Word) s t, exec (Op.set16 q v).toInstr s = .next t →
    exec (Op.set16 q w).toInstr t = exec (Op.set16 q w).toInstr s) ∧
  (∀ q hi lo r (v : Word) (b : Byte) s t u, halves q = some (hi, lo) → r = hi ∨ r = lo →
    exec (Op.set16 q v).toInstr s = .next t → exec (Op.set8 r b).toInstr t = .next u →
    u.rf.read8 r = b ∧ ∀ r', r' = hi ∨ r' = lo → r' ≠ r → u.rf.read8 r' = t.rf.read8 r') ∧
  (∀ q hi lo r (v : Word) (b : Byte) s t, halves q = some (hi, lo) → r = hi ∨ r = lo →
    exec (Op.set8 r b).toInstr s = .next t →
    exec (Op.set16 q v).toInstr t = exec (Op.set16 q v).toInstr s)

/-! ### Canonical flags -/

/-- 10_state R26, R27: while the consumer writes F only with a zero low nibble, every step keeps `Canonical`. -/
def Obligations.FaithfulConsumerKeepsFlagsCanonical : Prop :=
  ∀ s t : State, s.CanonicalInv → step s = .next t → t.CanonicalInv

/-- 10_state R27, which the spec derives from R25, R26 and R33: `Canonical` holds at reset, is lost by `setF` and
`setAF` with a nonzero low nibble and by nothing else, is established by reset, and would be kept by every event under
`F_WMASK = 0xF0`. -/
def Obligations.CanonicalIsLostOnlyByNonzeroLowNibble : Prop :=
  RegFile.reset.Canonical ∧
  (∀ (rf : RegFile) (e : Event), rf.Canonical →
    (¬ (applyEvent 0xFF e rf).1.Canonical ↔
      ∃ w, e = .word w ∧ ((∃ v, decode w = .op (.setF v) ∧ lowNibble v ≠ 0) ∨
        ∃ v, decode w = .op (.setAF v) ∧ lowNibble (loByte v) ≠ 0))) ∧
  (∀ (m : Byte) (rf : RegFile), (applyEvent m .reset rf).1.Canonical ∧
    (applyEvent m (.word 0x100000#24) rf).1.Canonical) ∧
  (∀ (rf : RegFile) (es : List Event), rf.Canonical → (runEvents 0xF0 es rf).Canonical)

/-- 93_implementation_defined U3: runs whose F writes all have a zero low nibble are the same under both masks. -/
def Obligations.FaithfulRunsDoNotDependOnTheMask : Prop :=
  ∀ (es : List Event) (rf : RegFile), (∀ e ∈ es, e.faithful = true) →
    runEvents 0xFF es rf = runEvents 0xF0 es rf ∧ runResponses 0xFF es rf = runResponses 0xF0 es rf

/-- 60_exceptions R101, R105: a legal run never answers `err = 1`. -/
def Obligations.LegalRunsNeverAnswerErr : Prop :=
  ∀ s t : State, s.LegalInv → step s = .next t → t.LegalInv

/-- The two invariants hold at reset. That F is canonical then is 10_state R27 and R33, that `err` is 0 while the reset
pin is high is 70_reset_and_hazards R115; that the state after reset still shows that response, and that no event is to
come in it, is the model's choice of `State.reset`, log entry 3. -/
def Obligations.InvariantsHoldAtReset : Prop :=
  State.reset.CanonicalInv ∧ State.reset.LegalInv

/-! ### Runs -/

/-- 20_memory R46, 70_reset_and_hazards R126: the machine at its pins is the fold of the transaction model over the
run's events; the response of each cycle is that of its event, computed from the events before it. -/
def Obligations.PortRunIsTheFoldOfTheEvents : Prop :=
  ∀ (s : State) (k : Nat) (p : PortIn), s.inputs[k]? = some p →
    ∃ t, runCycles (k + 1) s = .next t ∧
      t.inputs = s.inputs.drop (k + 1) ∧
      t.rf = runEvents Config.fWmask (eventsOf (s.inputs.take (k + 1))) s.rf ∧
      (p.event = none → t.rsp = ⟨false, 0⟩) ∧
      (∀ e, p.event = some e →
        t.rsp = (applyEvent Config.fWmask e (runEvents Config.fWmask (eventsOf (s.inputs.take k)) s.rf)).2 ∧
        (runResponses Config.fWmask (eventsOf (s.inputs.take (k + 1))) s.rf).getLast? = some t.rsp)

/-- 20_memory R46: "A read returns the value of the latest earlier write to that field, or the reset value if there has
been none since the last reset"; a field never written keeps its value from before the run. -/
def Obligations.ReadReturnsTheLatestWrite : Prop :=
  (∀ (m : Byte) (es : List Event) (rf : RegFile),
    (∀ r, (runEvents m es rf).read8 r = (latest (Event.stores8 m r) es).getD (rf.read8 r)) ∧
    (runEvents m es rf).sp = (latest Event.storesSP es).getD rf.sp ∧
    (runEvents m es rf).pc = (latest Event.storesPC es).getD rf.pc) ∧
  (∀ s : State, ∃ t, runCycles s.inputs.length s = .next t ∧
    (∀ r, t.rf.read8 r = (latest (Event.stores8 Config.fWmask r) (eventsOf s.inputs)).getD (s.rf.read8 r)) ∧
    t.rf.sp = (latest Event.storesSP (eventsOf s.inputs)).getD s.rf.sp ∧
    t.rf.pc = (latest Event.storesPC (eventsOf s.inputs)).getD s.rf.pc)

/-- 70_reset_and_hazards R126: every number of cycles can be run from every state, each taking one cycle off the list
while there is one; there is no terminal state. For `k` beyond the list's length nothing is left to take, and that the
run goes on there, as an idle port, is the model's choice, log entry 1. -/
def Obligations.RunsNeverStop : Prop :=
  ∀ k s, ∃ t, runCycles k s = .next t ∧ t.inputs = s.inputs.drop k

/-- 70_reset_and_hazards R124, which the spec derives from R115 and R117: a reset edge in a stream overwrites what
came before, drops its own command, and the commands after it act on `RESET_STATE`. -/
def Obligations.ResetInAStream : Prop :=
  ∀ (s : State) (pre post : List PortIn) (valid : Bool) (w : CommandWord),
    s.inputs = pre ++ ⟨true, valid, w⟩ :: post →
      runCycles (pre.length + 1) s = .next { rf := RegFile.reset, rsp := ⟨false, 0⟩, inputs := post }

/-! ### Instances -/

/-- 10_state R36: a cycle of one instance leaves every other as it is, and depends on no other. That a system is a list
of instances is the model's choice: log entry 15. -/
def Obligations.InstancesShareNothing : Prop :=
  (∀ (k j : Nat) (sys : List State), j ≠ k → (stepInstance k sys)[j]? = sys[j]?) ∧
  (∀ (k : Nat) (sys : List State) (s : State), sys[k]? = some s →
    ∃ t, step s = .next t ∧ (stepInstance k sys)[k]? = some t)

/-! ### Written calls -/

/-- 30_encoding R62 (the text's letter case and the width of a written literal are the model's, log entry 14): every
operation written as a call is read back as that operation. -/
def Obligations.WrittenOperationIsReadBack : Prop :=
  ∀ op : Op, parseOp (writeCall op) = some op

/-- 30_encoding R62, R63: a call spells an operation exactly when it is well formed, a literal is never truncated, and
a name or an id names the register of R52 or R53, in a read and in a write: `set16(BC, v) = setBC(v)`. -/
def Obligations.CallsSpellExactlyWhenWellFormed : Prop :=
  (∀ c : Call, (assemble c).isSome = true ↔ c.wellFormed = true) ∧
  (∀ r n op, assemble (.set8 r n) = some op → ∃ r' v, regOf8 r = some r' ∧ op = .set8 r' v ∧ v.toNat = n) ∧
  (∀ q n op, assemble (.set16 q n) = some op → ∃ q' v, regOf16 q = some q' ∧ op = .set16 q' v ∧ v.toNat = n) ∧
  (∀ r, regOf8 (.name r) = some r ∧ ∀ n, regOf8 (.id n) = some r ↔ n = (r8Id r).toNat) ∧
  (∀ q, regOf16 (.name q) = some q ∧ ∀ n, regOf16 (.id n) = some q ↔ n = (r16Id q).toNat) ∧
  (∀ r (v : Byte), assemble (.set8 (.name r) v.toNat) = some (.set8 r v) ∧
    assemble (.set8 (.id (r8Id r).toNat) v.toNat) = some (.set8 r v)) ∧
  (∀ q (v : Word), assemble (.set16 (.name q) v.toNat) = some (.set16 q v) ∧
    assemble (.set16 (.id (r16Id q).toNat) v.toNat) = some (.set16 q v)) ∧
  (∀ r, assemble (.get8 (.name r)) = assemble (.get8 (.id (r8Id r).toNat)) ∧
    assemble (.get8 (.name r)) = some (.get8 r)) ∧
  (∀ q, assemble (.get16 (.name q)) = assemble (.get16 (.id (r16Id q).toNat)) ∧
    assemble (.get16 (.name q)) = some (.get16 q))

/-- 30_encoding R64: `NewCPU()` expands to `reset()`, in text, as a call and as an effect. -/
def Obligations.NewCpuIsReset : Prop :=
  parseOp ['N', 'e', 'w', 'C', 'P', 'U', '(', ')'] = some .reset ∧
  parseOp ['r', 'e', 's', 'e', 't', '(', ')'] = some .reset ∧
  assemble .newCPU = assemble .reset ∧
  ∀ op s, assemble .newCPU = some op → exec op.toInstr s = .next { s with rf := RegFile.reset, rsp := ⟨false, 0⟩ }
end

