-- ==== Sys2Proof/Laws/Decode.lean ====
section
/-! SUPPORT. The fields of a command word, and the decoder's tables as inverses of the encoder's. -/

namespace Sys2Proof

theorem opField_toNat (w : CommandWord) : (opField w).toNat = w.toNat / 2 ^ 20 := by
  simp [opField, BitVec.extractLsb'_toNat, Nat.shiftRight_eq_div_pow]; omega

theorem selField_toNat (w : CommandWord) : (selField w).toNat = w.toNat / 2 ^ 16 % 16 := by
  simp [selField, BitVec.extractLsb'_toNat, Nat.shiftRight_eq_div_pow]

theorem dataField_toNat (w : CommandWord) : (dataField w).toNat = w.toNat % 2 ^ 16 := by
  simp [dataField, BitVec.extractLsb'_toNat]

theorem hiByte_toNat (v : Word) : (hiByte v).toNat = v.toNat / 256 := by
  simp [hiByte, BitVec.extractLsb'_toNat, Nat.shiftRight_eq_div_pow]; omega

theorem loByte_toNat (v : Word) : (loByte v).toNat = v.toNat % 256 := by
  simp [loByte, BitVec.extractLsb'_toNat]

theorem zext16_toNat (v : Byte) : (zext16 v).toNat = v.toNat := by
  simp [zext16]; omega

/-- R50's formula loses nothing: the fields fit the word. -/
theorem commandWord_toNat (op sel : Nibble) (data : Word) :
    (commandWord op sel data).toNat = op.toNat * 2 ^ 20 + sel.toNat * 2 ^ 16 + data.toNat := by
  have := op.isLt; have := sel.isLt; have := data.isLt
  simp only [commandWord, BitVec.toNat_ofNat]; omega

@[simp] theorem opField_commandWord (op sel : Nibble) (data : Word) : opField (commandWord op sel data) = op := by
  apply BitVec.eq_of_toNat_eq
  have := op.isLt; have := sel.isLt; have := data.isLt
  rw [opField_toNat, commandWord_toNat]; omega

@[simp] theorem selField_commandWord (op sel : Nibble) (data : Word) : selField (commandWord op sel data) = sel := by
  apply BitVec.eq_of_toNat_eq
  have := op.isLt; have := sel.isLt; have := data.isLt
  rw [selField_toNat, commandWord_toNat]; omega

@[simp] theorem dataField_commandWord (op sel : Nibble) (data : Word) :
    dataField (commandWord op sel data) = data := by
  apply BitVec.eq_of_toNat_eq
  have := op.isLt; have := sel.isLt; have := data.isLt
  rw [dataField_toNat, commandWord_toNat]; omega

/-- A command word is its three fields. -/
theorem commandWord_fields (w : CommandWord) : commandWord (opField w) (selField w) (dataField w) = w := by
  apply BitVec.eq_of_toNat_eq
  rw [commandWord_toNat, opField_toNat, selField_toNat, dataField_toNat]; omega

@[simp] theorem r8Of_r8Id (r : Reg8) : r8Of (r8Id r) = some r := by cases r <;> rfl

@[simp] theorem r16Of_r16Id (q : Reg16) : r16Of (r16Id q) = some q := by cases q <;> rfl

/-- An r8 id that names a register is that register's id. -/
theorem r8Id_of_r8Of {sel : Nibble} {r : Reg8} (h : r8Of sel = some r) : r8Id r = sel := by
  revert h; revert sel r; decide

/-- An r16 id that names a register or pair is its id. -/
theorem r16Id_of_r16Of {sel : Nibble} {q : Reg16} (h : r16Of sel = some q) : r16Id q = sel := by
  revert h; revert sel q; decide

@[simp] theorem hiByte_zext16 (v : Byte) : hiByte (zext16 v) = 0 := by
  apply BitVec.eq_of_toNat_eq
  have := v.isLt
  rw [hiByte_toNat, zext16_toNat]; simp; omega

@[simp] theorem loByte_zext16 (v : Byte) : loByte (zext16 v) = v := by
  apply BitVec.eq_of_toNat_eq
  have := v.isLt
  rw [loByte_toNat, zext16_toNat]; omega

/-- A 16-bit value whose high byte is zero is its low byte zero-extended. -/
theorem zext16_loByte {d : Word} (h : hiByte d = 0) : zext16 (loByte d) = d := by
  have := congrArg BitVec.toNat h
  rw [hiByte_toNat] at this
  apply BitVec.eq_of_toNat_eq
  rw [zext16_toNat, loByte_toNat]; simp at this; omega

/-- The operation a decoded word stands for. -/
theorem decode_of_decodeOp {w : CommandWord} {op : Op} (h : decodeOp w = some op) : decode w = .op op.toInstr := by
  simp [decode, h]

/-- A word without an operation is rejected by the name of its class. -/
theorem decode_of_decodeOp_none {w : CommandWord} (h : decodeOp w = none) :
    decode w = .illegal (illegalClass w) := by
  simp [decode, h]

end Sys2Proof
end

