-- ==== Sys2Proof/Laws/Operands.lean ====
section
/-! SUPPORT. What reading, writing, composing and decomposing registers can do, once each, for every `F_WMASK`. -/

namespace Sys2Proof.Machine

/-! ### Bytes of a word -/

/-- Concatenation is exact (10_state R30). -/
theorem pair_toNat (hi lo : Byte) : (pair hi lo).toNat = 256 * hi.toNat + lo.toNat := by
  have := hi.isLt; have := lo.isLt
  simp only [pair, BitVec.toNat_ofNat]; omega

@[simp] theorem hiByte_pair (hi lo : Byte) : hiByte (pair hi lo) = hi := by
  apply BitVec.eq_of_toNat_eq
  have := hi.isLt; have := lo.isLt
  rw [hiByte_toNat, pair_toNat]; omega

@[simp] theorem loByte_pair (hi lo : Byte) : loByte (pair hi lo) = lo := by
  apply BitVec.eq_of_toNat_eq
  have := hi.isLt; have := lo.isLt
  rw [loByte_toNat, pair_toNat]; omega

@[simp] theorem pair_hiByte_loByte (v : Word) : pair (hiByte v) (loByte v) = v := by
  apply BitVec.eq_of_toNat_eq
  rw [pair_toNat, hiByte_toNat, loByte_toNat]; omega

@[simp] theorem maskF_normative (v : Byte) : maskF Config.fWmask v = v := BitVec.and_allOnes

/-! ### One 8-bit register -/

/-- A written register reads back as written, F through the mask. -/
theorem RegFile.read8_write8_same (m : Byte) (r : Reg8) (v : Byte) (rf : RegFile) :
    (rf.write8 m r v).read8 r = if r = .f then maskF m v else v := by
  cases r <;> rfl

/-- Writing one register leaves every other register alone. -/
theorem RegFile.read8_write8_other (m : Byte) {r r' : Reg8} (h : r' ≠ r) (v : Byte) (rf : RegFile) :
    (rf.write8 m r v).read8 r' = rf.read8 r' := by
  cases r <;> cases r' <;> first | rfl | exact absurd rfl h

@[simp] theorem RegFile.write8_sp (m : Byte) (r : Reg8) (v : Byte) (rf : RegFile) :
    (rf.write8 m r v).sp = rf.sp := by cases r <;> rfl

@[simp] theorem RegFile.write8_pc (m : Byte) (r : Reg8) (v : Byte) (rf : RegFile) :
    (rf.write8 m r v).pc = rf.pc := by cases r <;> rfl

/-- A second write to the same register replaces the first. -/
theorem RegFile.write8_write8 (m : Byte) (r : Reg8) (v w : Byte) (rf : RegFile) :
    (rf.write8 m r v).write8 m r w = rf.write8 m r w := by cases r <;> rfl

/-- The ten fields, read one by one, determine the register file. -/
theorem RegFile.ext_read {rf rf' : RegFile} (h8 : ∀ r, rf.read8 r = rf'.read8 r) (hsp : rf.sp = rf'.sp)
    (hpc : rf.pc = rf'.pc) : rf = rf' := by
  have a := h8 .a; have b := h8 .b; have c := h8 .c; have d := h8 .d
  have e := h8 .e; have f := h8 .f; have h := h8 .h; have l := h8 .l
  cases rf; cases rf'; simp_all [RegFile.read8]

/-! ### SP, PC and the pairs -/

/-- A 16-bit write in terms of the fields, under the normative mask. -/
theorem RegFile.write16_normative (q : Reg16) (v : Word) (rf : RegFile) :
    rf.write16 Config.fWmask q v =
      match q with
      | .sp => { rf with sp := v }
      | .pc => { rf with pc := v }
      | .af => { rf with a := hiByte v, f := loByte v }
      | .bc => { rf with b := hiByte v, c := loByte v }
      | .de => { rf with d := hiByte v, e := loByte v }
      | .hl => { rf with h := hiByte v, l := loByte v } := by
  cases q <;> simp [RegFile.write16, RegFile.writePair, RegFile.write8]

/-- An 8-bit write in terms of the fields, under the normative mask. -/
theorem RegFile.write8_normative (r : Reg8) (v : Byte) (rf : RegFile) :
    rf.write8 Config.fWmask r v =
      match r with
      | .a => { rf with a := v }
      | .b => { rf with b := v }
      | .c => { rf with c := v }
      | .d => { rf with d := v }
      | .e => { rf with e := v }
      | .f => { rf with f := v }
      | .h => { rf with h := v }
      | .l => { rf with l := v } := by
  cases r <;> simp [RegFile.write8]

end Sys2Proof.Machine
end

