-- ==== Sys2Proof/Laws/PerInstr.lean ====
section
/-! SUPPORT. Per-operation facts about the syntax: a named operation's generic form stands for that operation and no
other (30_encoding R63). -/

namespace Sys2Proof.Laws.GenericForm

/-- The operation is the one its generic form names. -/
def Statement (i : Instr) : Prop := i.toOp.toInstr = i

theorem reset : Statement .reset := rfl
theorem getA : Statement .getA := rfl
theorem getB : Statement .getB := rfl
theorem getC : Statement .getC := rfl
theorem getD : Statement .getD := rfl
theorem getE : Statement .getE := rfl
theorem getF : Statement .getF := rfl
theorem getH : Statement .getH := rfl
theorem getL : Statement .getL := rfl
theorem setA (v : Byte) : Statement (.setA v) := rfl
theorem setB (v : Byte) : Statement (.setB v) := rfl
theorem setC (v : Byte) : Statement (.setC v) := rfl
theorem setD (v : Byte) : Statement (.setD v) := rfl
theorem setE (v : Byte) : Statement (.setE v) := rfl
theorem setF (v : Byte) : Statement (.setF v) := rfl
theorem setH (v : Byte) : Statement (.setH v) := rfl
theorem setL (v : Byte) : Statement (.setL v) := rfl
theorem getSP : Statement .getSP := rfl
theorem getPC : Statement .getPC := rfl
theorem getAF : Statement .getAF := rfl
theorem getBC : Statement .getBC := rfl
theorem getDE : Statement .getDE := rfl
theorem getHL : Statement .getHL := rfl
theorem setSP (v : Word) : Statement (.setSP v) := rfl
theorem setPC (v : Word) : Statement (.setPC v) := rfl
theorem setAF (v : Word) : Statement (.setAF v) := rfl
theorem setBC (v : Word) : Statement (.setBC v) := rfl
theorem setDE (v : Word) : Statement (.setDE v) := rfl
theorem setHL (v : Word) : Statement (.setHL v) := rfl

end Sys2Proof.Laws.GenericForm
end

