-- ==== Sys2Proof/Laws/State.lean ====
section
/-! SUPPORT. One lemma per field of State per way a cycle can end, so that no later proof unfolds a record update, and
what a fetch takes from the list of coming cycles. -/

namespace Sys2Proof.Machine

@[simp] theorem State.answer_rf (s : State) (rf : RegFile) (d : Word) : (s.answer rf d).rf = rf := rfl
@[simp] theorem State.answer_rsp (s : State) (rf : RegFile) (d : Word) : (s.answer rf d).rsp = ⟨false, d⟩ := rfl
@[simp] theorem State.answer_inputs (s : State) (rf : RegFile) (d : Word) : (s.answer rf d).inputs = s.inputs := rfl

@[simp] theorem State.answerRead_rf (s : State) (d : Word) : (s.answerRead d).rf = s.rf := rfl
@[simp] theorem State.answerRead_rsp (s : State) (d : Word) : (s.answerRead d).rsp = ⟨false, d⟩ := rfl
@[simp] theorem State.answerRead_inputs (s : State) (d : Word) : (s.answerRead d).inputs = s.inputs := rfl

@[simp] theorem State.answerWrite_rf (s : State) (rf : RegFile) : (s.answerWrite rf).rf = rf := rfl
@[simp] theorem State.answerWrite_rsp (s : State) (rf : RegFile) : (s.answerWrite rf).rsp = ⟨false, 0⟩ := rfl
@[simp] theorem State.answerWrite_inputs (s : State) (rf : RegFile) : (s.answerWrite rf).inputs = s.inputs := rfl

@[simp] theorem State.takeIllegal_rf (s : State) : s.takeIllegal.rf = s.rf := rfl
@[simp] theorem State.takeIllegal_rsp (s : State) : s.takeIllegal.rsp = ⟨true, 0⟩ := rfl
@[simp] theorem State.takeIllegal_inputs (s : State) : s.takeIllegal.inputs = s.inputs := rfl

@[simp] theorem State.resetPin_rf (s : State) : s.resetPin.rf = RegFile.reset := rfl
@[simp] theorem State.resetPin_rsp (s : State) : s.resetPin.rsp = Response.zero := rfl
@[simp] theorem State.resetPin_inputs (s : State) : s.resetPin.inputs = s.inputs := rfl

@[simp] theorem State.idle_rf (s : State) : s.idle.rf = s.rf := rfl
@[simp] theorem State.idle_rsp (s : State) : s.idle.rsp = Response.zero := rfl
@[simp] theorem State.idle_inputs (s : State) : s.idle.inputs = s.inputs := rfl

@[simp] theorem State.get8_rf (r : Reg8) (s : State) : (s.get8 r).rf = s.rf := rfl
@[simp] theorem State.get8_rsp (r : Reg8) (s : State) : (s.get8 r).rsp = ⟨false, zext16 (s.rf.read8 r)⟩ := rfl
@[simp] theorem State.get8_inputs (r : Reg8) (s : State) : (s.get8 r).inputs = s.inputs := rfl

@[simp] theorem State.get16_rf (q : Reg16) (s : State) : (s.get16 q).rf = s.rf := rfl
@[simp] theorem State.get16_rsp (q : Reg16) (s : State) : (s.get16 q).rsp = ⟨false, s.rf.read16 q⟩ := rfl
@[simp] theorem State.get16_inputs (q : Reg16) (s : State) : (s.get16 q).inputs = s.inputs := rfl

@[simp] theorem State.set8_rf (r : Reg8) (v : Byte) (s : State) :
    (s.set8 r v).rf = s.rf.write8 Config.fWmask r v := rfl
@[simp] theorem State.set8_rsp (r : Reg8) (v : Byte) (s : State) : (s.set8 r v).rsp = ⟨false, 0⟩ := rfl
@[simp] theorem State.set8_inputs (r : Reg8) (v : Byte) (s : State) : (s.set8 r v).inputs = s.inputs := rfl

@[simp] theorem State.set16_rf (q : Reg16) (v : Word) (s : State) :
    (s.set16 q v).rf = s.rf.write16 Config.fWmask q v := rfl
@[simp] theorem State.set16_rsp (q : Reg16) (v : Word) (s : State) : (s.set16 q v).rsp = ⟨false, 0⟩ := rfl
@[simp] theorem State.set16_inputs (q : Reg16) (v : Word) (s : State) : (s.set16 q v).inputs = s.inputs := rfl

@[simp] theorem State.resetCommand_rf (s : State) : s.resetCommand.rf = RegFile.reset := rfl
@[simp] theorem State.resetCommand_rsp (s : State) : s.resetCommand.rsp = ⟨false, 0⟩ := rfl
@[simp] theorem State.resetCommand_inputs (s : State) : s.resetCommand.inputs = s.inputs := rfl

@[simp] theorem State.withFetchWord_rf (s : State) (n w : Nat) : (s.withFetchWord n w).rf = s.rf := rfl
@[simp] theorem State.withFetchWord_rsp (s : State) (n w : Nat) : (s.withFetchWord n w).rsp = s.rsp := rfl
@[simp] theorem State.withFetchWord_inputs (s : State) (n w : Nat) :
    (s.withFetchWord n w).inputs = PortIn.command (tableWord n w) :: s.inputs := rfl

/-- The cycle performed is the head of the list, or an idle one when the list is empty. -/
theorem State.fetch_pins (s : State) : s.fetch.1 = s.inputs.headD PortIn.idle := by
  unfold State.fetch; split <;> simp [*]

@[simp] theorem State.fetch_rf (s : State) : s.fetch.2.rf = s.rf := by
  unfold State.fetch; split <;> rfl

@[simp] theorem State.fetch_rsp (s : State) : s.fetch.2.rsp = s.rsp := by
  unfold State.fetch; split <;> rfl

@[simp] theorem State.fetch_inputs (s : State) : s.fetch.2.inputs = s.inputs.tail := by
  unfold State.fetch; split <;> simp [*]

@[simp] theorem PortIn.idle_event : PortIn.idle.event = none := rfl
@[simp] theorem PortIn.command_event (w : CommandWord) : (PortIn.command w).event = some (.word w) := rfl

end Sys2Proof.Machine
end

