-- ==== Sys2Proof/Laws/Step.lean ====
section
/-! SUPPORT. Everything a step can do: four ways a cycle ends, one of them the performed operation. -/

namespace Sys2Proof.Machine

/-- The state that an operation in its generic form leads to. -/
def State.performed (s : State) (op : Op) : State :=
  match op with
  | .reset => s.resetCommand
  | .get8 r => s.get8 r
  | .set8 r v => s.set8 r v
  | .get16 q => s.get16 q
  | .set16 q v => s.set16 q v

/-- exec in terms of the generic form. -/
theorem exec_toInstr (op : Op) (s : State) : exec op.toInstr s = .next (s.performed op) := by
  cases op with
  | reset => rfl
  | get8 r => cases r <;> rfl
  | set8 r v => cases r <;> rfl
  | get16 q => cases q <;> rfl
  | set16 q v => cases q <;> rfl

/-- Every operation is the named form of its generic form. -/
theorem toInstr_toOp (i : Instr) : i.toOp.toInstr = i := by cases i <;> rfl

/-- exec of a named operation. -/
theorem exec_eq (i : Instr) (s : State) : exec i s = .next (s.performed i.toOp) := by
  rw [← exec_toInstr, toInstr_toOp]

@[simp] theorem State.performed_rf (s : State) (op : Op) :
    (s.performed op).rf = (perform Config.fWmask op s.rf).1 := by cases op <;> rfl

@[simp] theorem State.performed_rsp (s : State) (op : Op) :
    (s.performed op).rsp = ⟨false, (perform Config.fWmask op s.rf).2⟩ := by cases op <;> rfl

@[simp] theorem State.performed_inputs (s : State) (op : Op) : (s.performed op).inputs = s.inputs := by
  cases op <;> rfl

/-- A step that answers a next state ends in one of these four ways. -/
theorem step_cases {s t : State} (h : step s = .next t) :
    (s.fetch.1.event = none ∧ t = s.fetch.2.idle) ∨
    (s.fetch.1.event = some .reset ∧ t = s.fetch.2.resetPin) ∨
    (∃ w op, s.fetch.1.event = some (.word w) ∧ decodeOp w = some op ∧ t = s.fetch.2.performed op) ∨
    (∃ w, s.fetch.1.event = some (.word w) ∧ decodeOp w = none ∧ t = s.fetch.2.takeIllegal) := by
  unfold step at h
  split at h
  · rename_i he; cases h; exact .inl ⟨he, rfl⟩
  · rename_i he; cases h; exact .inr (.inl ⟨he, rfl⟩)
  · rename_i w he
    cases hd : decodeOp w with
    | some op =>
      rw [decode_of_decodeOp hd] at h
      simp only [exec_toInstr] at h
      cases h
      exact .inr (.inr (.inl ⟨w, op, he, hd, rfl⟩))
    | none =>
      rw [decode_of_decodeOp_none hd] at h
      cases h
      exact .inr (.inr (.inr ⟨w, he, hd, rfl⟩))

/-- What a step leaves, by the event of its cycle. -/
def State.afterCycle (s : State) : Option Event → State
  | none => s.idle
  | some .reset => s.resetPin
  | some (.word w) =>
    match decodeOp w with
    | some op => s.performed op
    | none => s.takeIllegal

/-- A step as an equation. -/
theorem step_eq (s : State) : step s = .next (s.fetch.2.afterCycle s.fetch.1.event) := by
  unfold step
  split <;> rename_i he <;> rw [he] <;> try rfl
  rename_i w
  unfold State.afterCycle
  cases hd : decodeOp w with
  | some op => simp [decode_of_decodeOp hd, exec_toInstr, hd]
  | none => simp [decode_of_decodeOp_none hd, hd]

/-- A cycle takes its pins off the list and nothing else. -/
@[simp] theorem State.afterCycle_inputs (s : State) (e : Option Event) : (s.afterCycle e).inputs = s.inputs := by
  unfold State.afterCycle; split <;> try rfl
  split <;> simp

/-- A cycle with an event does to the register file what the transaction model says. -/
theorem State.afterCycle_event_rf (s : State) (e : Event) :
    (s.afterCycle (some e)).rf = (applyEvent Config.fWmask e s.rf).1 := by
  cases e with
  | reset => rfl
  | word w =>
    simp only [State.afterCycle, applyEvent, execWord]
    cases decodeOp w <;> simp

/-- A cycle with an event responds what the transaction model says. -/
theorem State.afterCycle_event_rsp (s : State) (e : Event) :
    (s.afterCycle (some e)).rsp = (applyEvent Config.fWmask e s.rf).2 := by
  cases e with
  | reset => rfl
  | word w =>
    simp only [State.afterCycle, applyEvent, execWord]
    cases decodeOp w <;> simp

/-- One cycle more, as an equation. -/
theorem runCycles_succ (k : Nat) (s : State) :
    runCycles (k + 1) s = runCycles k (s.fetch.2.afterCycle s.fetch.1.event) := by
  rw [runCycles, step_eq]

/-- Running cycles is the host's run of the machine. -/
theorem core_run_eq (k : Nat) (s : State) : Host.Core.run core k s = runCycles k s := by
  induction k generalizing s with
  | zero => rfl
  | succ k ih =>
    have h : core.step s = .next (s.fetch.2.afterCycle s.fetch.1.event) := step_eq s
    rw [runCycles_succ, ← ih]
    simp only [Host.Core.run, h]

/-- A presented command is the next cycle. -/
theorem fetch_present (w : CommandWord) (s : State) : (s.present w).fetch = (PortIn.command w, s) := rfl

/-- The step that takes a presented command. -/
theorem step_present (w : CommandWord) (s : State) :
    step (s.present w) = .next (s.afterCycle (some (.word w))) := by
  rw [step_eq, fetch_present]; rfl

/-- States with equal fields are equal. -/
theorem State.ext_fields {s t : State} (hrf : s.rf = t.rf) (hrsp : s.rsp = t.rsp) (hin : s.inputs = t.inputs) :
    s = t := by
  cases s; cases t; simp_all

end Sys2Proof.Machine
end

