-- ==== Sys2Proof/Laws/Transaction.lean ====
section
/-! SUPPORT. Runs of the transaction model cut in two, the events of a schedule, and the digits of a written literal. -/

namespace Sys2Proof.Machine

@[simp] theorem runEvents_nil (m : Byte) (rf : RegFile) : runEvents m [] rf = rf := rfl

@[simp] theorem runEvents_cons (m : Byte) (e : Event) (es : List Event) (rf : RegFile) :
    runEvents m (e :: es) rf = runEvents m es (applyEvent m e rf).1 := rfl

/-- A run cut in two. -/
theorem runEvents_append (m : Byte) (es es' : List Event) (rf : RegFile) :
    runEvents m (es ++ es') rf = runEvents m es' (runEvents m es rf) := by
  induction es generalizing rf with
  | nil => rfl
  | cons e es ih => exact ih _

/-- The responses of a run cut in two. -/
theorem runResponses_append (m : Byte) (es es' : List Event) (rf : RegFile) :
    runResponses m (es ++ es') rf = runResponses m es rf ++ runResponses m es' (runEvents m es rf) := by
  induction es generalizing rf with
  | nil => rfl
  | cons e es ih => simp [runResponses, ih]

@[simp] theorem eventsOf_nil : eventsOf [] = [] := rfl

/-- An idle cycle adds no event. -/
theorem eventsOf_cons_none {p : PortIn} (h : p.event = none) (ps : List PortIn) : eventsOf (p :: ps) = eventsOf ps := by
  simp [eventsOf, h]

/-- Any other cycle adds one. -/
theorem eventsOf_cons_some {p : PortIn} {e : Event} (h : p.event = some e) (ps : List PortIn) :
    eventsOf (p :: ps) = e :: eventsOf ps := by
  simp [eventsOf, h]

theorem eventsOf_append (ps qs : List PortIn) : eventsOf (ps ++ qs) = eventsOf ps ++ eventsOf qs := by
  simp [eventsOf, List.filterMap_append]

/-- A cycle that resets has the pin high. -/
theorem PortIn.rst_of_event {p : PortIn} (h : p.event = some .reset) : p.rst = true := by
  unfold PortIn.event at h; split at h <;> first | assumption | (split at h <;> cases h)

/-- A cycle that performs a command has it on the port. -/
theorem PortIn.cmd_of_event {p : PortIn} {w : CommandWord} (h : p.event = some (.word w)) :
    p.cmdValid = true ∧ p.cmd = w := by
  unfold PortIn.event at h; split at h
  · cases h
  · split at h <;> cases h; exact ⟨by assumption, rfl⟩

/-- The latest write in a run, its first event taken apart. -/
theorem latest_cons {α β : Type} (f : α → Option β) (e : α) (es : List α) (d : β) :
    (latest f (e :: es)).getD d = (latest f es).getD ((f e).getD d) := by
  simp only [latest, List.reverse_cons, List.findSome?_append]
  cases List.findSome? f es.reverse <;> simp

/-- A run without a writer has no latest write. -/
theorem latest_of_none {α β : Type} (f : α → Option β) (es : List α) (h : ∀ e ∈ es, f e = none) :
    latest f es = none := by
  simp only [latest, List.findSome?_eq_none_iff, List.mem_reverse]; exact h

/-- All that a place in a row of characters can be. -/
theorem placeIn_eq_some {first c : Char} {count value n : Nat} :
    placeIn first count value c = some n ↔
      (first.toNat ≤ c.toNat ∧ c.toNat < first.toNat + count) ∧ value + (c.toNat - first.toNat) = n := by
  simp [placeIn]

/-- A written hexadecimal digit reads back. -/
theorem digitOf_hexDigit : ∀ n : Nibble, digitOf (hexDigit n) = some n.toNat := by decide

/-- A hexadecimal digit is no separator. -/
theorem hexDigit_plain : ∀ n : Nibble,
    hexDigit n ≠ ' ' ∧ hexDigit n ≠ ',' ∧ hexDigit n ≠ '(' ∧ hexDigit n ≠ ')' := by decide

end Sys2Proof.Machine
end

