-- ==== Sys2Proof/Tests/Slice0.lean ====
section
/-! SUPPORT. The model's own tests. Expected values are those of spec/95_test_vectors.md (X1 to X8, V-*) and of the
examples in the rules; each test names its vector or rule. Every test is one step on a small state. -/

namespace Sys2Proof.Tests

open Sys2Proof.Machine

/-- State M of 95_test_vectors 2.3. -/
def stateM : RegFile := ⟨0x12, 0x34, 0x56, 0x78, 0x9A, 0xC0, 0xDE, 0xF0, 0x8001, 0x7FFF⟩

/-- The all-ones state of V-S8-10. -/
def ones : RegFile := ⟨0xFF, 0xFF, 0xFF, 0xFF, 0xFF, 0xFF, 0xFF, 0xFF, 0xFFFF, 0xFFFF⟩

/-- A machine that holds `rf` and has nothing else to do. -/
def machine (rf : RegFile) : State := { State.reset with rf := rf }

/-- Register file and response after an outcome that is a next state. -/
def shown : Host.Outcome State Fault Refusal → Option (RegFile × Response)
  | .next t => some (t.rf, t.rsp)
  | .fault _ => none
  | .refused _ => none

/-- What one command word does to `rf`, at the port. -/
def command (w : CommandWord) (rf : RegFile) : Option (RegFile × Response) := shown (step ((machine rf).present w))

/-! ### Every operation: its word decodes (R57) and one step gives its vector -/

theorem test_reset :
    decode 0x100000#24 = .op .reset ∧ command 0x100000 stateM = some (RegFile.reset, ⟨false, 0⟩) := by decide -- V-R4

theorem test_getA :
    decode 0x200000#24 = .op .getA ∧ command 0x200000 stateM = some (stateM, ⟨false, 0x0012⟩) := by decide -- V-G8-1

theorem test_getB :
    decode 0x210000#24 = .op .getB ∧ command 0x210000 stateM = some (stateM, ⟨false, 0x0034⟩) := by decide -- V-G8-2

theorem test_getC :
    decode 0x220000#24 = .op .getC ∧ command 0x220000 stateM = some (stateM, ⟨false, 0x0056⟩) := by decide -- V-G8-3

theorem test_getD :
    decode 0x230000#24 = .op .getD ∧ command 0x230000 stateM = some (stateM, ⟨false, 0x0078⟩) := by decide -- V-G8-4

theorem test_getE :
    decode 0x240000#24 = .op .getE ∧ command 0x240000 stateM = some (stateM, ⟨false, 0x009A⟩) := by decide -- V-G8-5

theorem test_getF :
    decode 0x250000#24 = .op .getF ∧ command 0x250000 stateM = some (stateM, ⟨false, 0x00C0⟩) := by decide -- V-G8-6

theorem test_getH :
    decode 0x260000#24 = .op .getH ∧ command 0x260000 stateM = some (stateM, ⟨false, 0x00DE⟩) := by decide -- V-G8-7

theorem test_getL :
    decode 0x270000#24 = .op .getL ∧ command 0x270000 stateM = some (stateM, ⟨false, 0x00F0⟩) := by decide -- V-G8-8

theorem test_getE_zero_extends :
    command 0x240000 { RegFile.reset with e := 0xFF } = some ({ RegFile.reset with e := 0xFF }, ⟨false, 0x00FF⟩) := by
  decide -- V-G8-10

theorem test_getF_masks_nothing :
    command 0x250000 { RegFile.reset with f := 0x0F } = some ({ RegFile.reset with f := 0x0F }, ⟨false, 0x000F⟩) := by
  decide -- V-G8-11

theorem test_setA :
    decode 0x30005A#24 = .op (.setA 0x5A) ∧
      command 0x30005A RegFile.reset = some ({ RegFile.reset with a := 0x5A }, ⟨false, 0⟩) := by decide -- V-S8-1

theorem test_setB :
    decode 0x310000#24 = .op (.setB 0x00) ∧
      command 0x310000 RegFile.reset = some ({ RegFile.reset with b := 0x00 }, ⟨false, 0⟩) := by decide -- V-S8-2

theorem test_setC :
    decode 0x3200FF#24 = .op (.setC 0xFF) ∧
      command 0x3200FF RegFile.reset = some ({ RegFile.reset with c := 0xFF }, ⟨false, 0⟩) := by decide -- V-S8-3

theorem test_setD :
    decode 0x330080#24 = .op (.setD 0x80) ∧
      command 0x330080 RegFile.reset = some ({ RegFile.reset with d := 0x80 }, ⟨false, 0⟩) := by decide -- V-S8-4

theorem test_setE :
    decode 0x340001#24 = .op (.setE 0x01) ∧
      command 0x340001 RegFile.reset = some ({ RegFile.reset with e := 0x01 }, ⟨false, 0⟩) := by decide -- V-S8-5

theorem test_setF :
    decode 0x350040#24 = .op (.setF 0x40) ∧
      command 0x350040 RegFile.reset = some ({ RegFile.reset with f := 0x40 }, ⟨false, 0⟩) := by decide -- V-S8-6

theorem test_setH :
    decode 0x36007F#24 = .op (.setH 0x7F) ∧
      command 0x36007F RegFile.reset = some ({ RegFile.reset with h := 0x7F }, ⟨false, 0⟩) := by decide -- V-S8-7

theorem test_setL :
    decode 0x3700A5#24 = .op (.setL 0xA5) ∧
      command 0x3700A5 RegFile.reset = some ({ RegFile.reset with l := 0xA5 }, ⟨false, 0⟩) := by decide -- V-S8-8

theorem test_setE_in_ones : command 0x340000 ones = some ({ ones with e := 0 }, ⟨false, 0⟩) := by decide -- V-S8-10

theorem test_setF_keeps_the_low_nibble :
    command 0x3500FF RegFile.reset = some ({ RegFile.reset with f := 0xFF }, ⟨false, 0⟩) := by decide -- V-F1

theorem test_getSP :
    decode 0x400000#24 = .op .getSP ∧ command 0x400000 stateM = some (stateM, ⟨false, 0x8001⟩) := by decide -- V-G16-1

theorem test_getPC :
    decode 0x410000#24 = .op .getPC ∧ command 0x410000 stateM = some (stateM, ⟨false, 0x7FFF⟩) := by decide -- V-G16-2

theorem test_getAF :
    decode 0x420000#24 = .op .getAF ∧ command 0x420000 stateM = some (stateM, ⟨false, 0x12C0⟩) := by decide -- V-G16-3

theorem test_getBC :
    decode 0x430000#24 = .op .getBC ∧ command 0x430000 stateM = some (stateM, ⟨false, 0x3456⟩) := by decide -- V-G16-4

theorem test_getDE :
    decode 0x440000#24 = .op .getDE ∧ command 0x440000 stateM = some (stateM, ⟨false, 0x789A⟩) := by decide -- V-G16-5

theorem test_getHL :
    decode 0x450000#24 = .op .getHL ∧ command 0x450000 stateM = some (stateM, ⟨false, 0xDEF0⟩) := by decide -- V-G16-6

theorem test_setSP :
    decode 0x500001#24 = .op (.setSP 0x0001) ∧
      command 0x500001 RegFile.reset = some ({ RegFile.reset with sp := 0x0001 }, ⟨false, 0⟩) := by decide -- V-S16-1

theorem test_setPC :
    decode 0x51FFFF#24 = .op (.setPC 0xFFFF) ∧
      command 0x51FFFF RegFile.reset = some ({ RegFile.reset with pc := 0xFFFF }, ⟨false, 0⟩) := by decide -- V-S16-2

theorem test_setAF :
    decode 0x52FF70#24 = .op (.setAF 0xFF70) ∧
      command 0x52FF70 RegFile.reset = some ({ RegFile.reset with a := 0xFF, f := 0x70 }, ⟨false, 0⟩) := by decide -- V-S16-3

theorem test_setBC :
    decode 0x5300FF#24 = .op (.setBC 0x00FF) ∧
      command 0x5300FF RegFile.reset = some ({ RegFile.reset with b := 0x00, c := 0xFF }, ⟨false, 0⟩) := by decide -- V-S16-4

theorem test_setDE :
    decode 0x54FF00#24 = .op (.setDE 0xFF00) ∧
      command 0x54FF00 RegFile.reset = some ({ RegFile.reset with d := 0xFF, e := 0x00 }, ⟨false, 0⟩) := by decide -- V-S16-5

theorem test_setHL :
    decode 0x558000#24 = .op (.setHL 0x8000) ∧
      command 0x558000 RegFile.reset = some ({ RegFile.reset with h := 0x80, l := 0x00 }, ⟨false, 0⟩) := by decide -- V-S16-6

theorem test_setAF_keeps_the_low_nibble :
    command 0x5212FF RegFile.reset = some ({ RegFile.reset with a := 0x12, f := 0xFF }, ⟨false, 0⟩) := by
  decide -- V-F3

/-! ### The alternative `F_WMASK = 0xF0` -/

theorem test_setF_under_the_other_mask :
    (execWord 0xF0 0x3500FF RegFile.reset).1 = { RegFile.reset with f := 0xF0 } := by decide -- V-F4

theorem test_setAF_under_the_other_mask :
    (execWord 0xF0 0x5212FF RegFile.reset).1 = { RegFile.reset with a := 0x12, f := 0xF0 } := by decide -- V-F5

/-! ### ILLEGAL words -/

theorem test_illegal_words_by_class : -- V-D2 to V-D22
    decode 0x000000#24 = .illegal .reservedOp ∧ decode 0x600000#24 = .illegal .reservedOp ∧
    decode 0xFFFFFF#24 = .illegal .reservedOp ∧ decode 0x0100B0#24 = .illegal .reservedOp ∧
    decode 0x100001#24 = .illegal .resetWithOperand ∧ decode 0x110000#24 = .illegal .resetWithOperand ∧
    decode 0x280000#24 = .illegal .badGet8 ∧ decode 0x2F0000#24 = .illegal .badGet8 ∧
    decode 0x250001#24 = .illegal .badGet8 ∧
    decode 0x350100#24 = .illegal .badSet8 ∧ decode 0x3800AA#24 = .illegal .badSet8 ∧
    decode 0x30FFFF#24 = .illegal .badSet8 ∧
    decode 0x460000#24 = .illegal .badGet16 ∧ decode 0x408000#24 = .illegal .badGet16 ∧
    decode 0x56ABCD#24 = .illegal .badSet16 ∧ decode 0x5F0000#24 = .illegal .badSet16 := by decide

theorem test_illegal_set8_writes_nothing : command 0x30017F stateM = some (stateM, ⟨true, 0⟩) := by decide -- V-I2

theorem test_illegal_reset_resets_nothing : command 0x100001 stateM = some (stateM, ⟨true, 0⟩) := by decide -- V-I4

/-! ### Pins -/

theorem test_reset_pin_beats_a_command : -- R117
    shown (step { machine stateM with inputs := [⟨true, true, 0x3000FF⟩] }) = some (RegFile.reset, ⟨false, 0⟩) := by decide

theorem test_idle_ignores_cmd : -- R66
    shown (step { machine stateM with inputs := [⟨false, false, 0x3000FF⟩] }) = some (stateM, ⟨false, 0⟩) := by decide

theorem test_stopped_consumer : shown (step (machine stateM)) = some (stateM, ⟨false, 0⟩) := by decide -- R126

/-! ### The host's interface -/

theorem test_table_words_decode :
    decodeTableWord 24 0x53ABCD = some (.setBC 0xABCD) ∧ decodeTableWord 24 0x56ABCD = none := by decide

theorem test_fetch_word_runs_first :
    shown (step (State.reset.withFetchWord 24 0x53ABCD)) =
      some ({ RegFile.reset with b := 0xAB, c := 0xCD }, ⟨false, 0⟩) := by decide -- X6

/-! ### Written calls: the well-formedness smoke test, and R62 to R64 -/

theorem test_wellFormed_refuses_a_wide_8_bit_literal :
    (Call.set8 (.name .a) 256).wellFormed = false ∧ assemble (.set8 (.name .a) 256) = none := by decide

theorem test_wellFormed_refuses_a_wide_16_bit_literal :
    (Call.set16 (.name .bc) 65536).wellFormed = false ∧ assemble (.set16 (.name .bc) 65536) = none := by decide

theorem test_wellFormed_refuses_r8_id_8 :
    (Call.get8 (.id 8)).wellFormed = false ∧ (Call.set8 (.id 8) 0).wellFormed = false ∧
    assemble (.get8 (.id 8)) = none ∧ assemble (.set8 (.id 16) 0) = none := by decide

theorem test_wellFormed_refuses_r16_id_6 :
    (Call.get16 (.id 6)).wellFormed = false ∧ (Call.set16 (.id 6) 0).wellFormed = false ∧
    assemble (.get16 (.id 6)) = none ∧ assemble (.set16 (.id 16) 0) = none := by decide

theorem test_wellFormed_accepts_the_largest :
    (Call.set8 (.id 7) 255).wellFormed = true ∧ (Call.set16 (.id 5) 65535).wellFormed = true := by decide

theorem test_program_text : -- R62: "setB(0x12); setC(0x34); getBC()"
    parseProgram ['s', 'e', 't', 'B', '(', '0', 'x', '1', '2', ')', ';', ' ', 's', 'e', 't', 'C', '(', '0', 'x', '3',
      '4', ')', ';', ' ', 'g', 'e', 't', 'B', 'C', '(', ')'] =
      some [.set8 .b 0x12, .set8 .c 0x34, .get16 .bc] := by decide

theorem test_decimal_literal : -- R62
    parseOp ['s', 'e', 't', 'A', '(', '1', '2', '7', ')'] = some (.set8 .a 0x7F) ∧
    parseOp ['s', 'e', 't', 'A', '(', '2', '5', '6', ')'] = none := by decide

theorem test_generic_text : -- R63: "set16(BC, v) = setBC(v)"
    parseOp ['s', 'e', 't', '1', '6', '(', 'B', 'C', ',', ' ', '0', 'x', 'A', 'B', 'C', 'D', ')'] =
      some (.set16 .bc 0xABCD) ∧
    parseOp ['g', 'e', 't', '8', '(', '0', ')'] = some (.get8 .a) := by decide

/-! ### Each statement's hypotheses are met -/

/-- A machine about to take the command `w`. -/
def facing (w : CommandWord) : State := (machine stateM).present w

theorem test_witness_StepPerformsTheDecodedOperation :
    (facing 0x3000FF).inputs = ⟨false, true, 0x3000FF⟩ :: [] ∧ decode 0x3000FF#24 = .op (.setA 0xFF) := by decide

theorem test_witness_illegal_words : -- IllegalWordChangesNothing, IllegalWordLeavesNoTrace
    decodeOp 0x30017F#24 = none ∧ (opField 0x30017F#24).toNat = 3 ∧ hiByte (dataField 0x30017F#24) ≠ 0 ∧
    (opField 0x560000#24).toNat = 5 ∧ (selField 0x560000#24).toNat = 6 ∧
    (opField 0x100001#24).toNat = 1 ∧ 0x100001#24 ≠ 0x100000#24 := by decide

theorem test_witness_DecoderAcceptsExactlyItsFiveArms :
    decodeOp 0x53ABCD#24 = some (.set16 .bc 0xABCD) ∧ encodeOp (.set16 .bc 0xABCD) = 0x53ABCD#24 := by decide

theorem test_witness_IllegalWordsAreTheSixClasses :
    IllegalClass.Holds 0x5F0000#24 .badSet16 ∧ IllegalClass.Holds 0x600000#24 .reservedOp := by decide

theorem test_witness_TableRowsSpellTheirOperations :
    ∃ row ∈ opcodeTable, row.Spells 0x3000FF#24 ∧ row.op = .setA 0 := by decide

theorem test_witness_ResetPinBeatsACommand :
    ({ machine stateM with inputs := [⟨true, true, 0x3000FF⟩] } : State).inputs = ⟨true, true, 0x3000FF⟩ :: [] := by
  decide

theorem test_witness_IdleCycleHoldsTheState :
    ({ machine stateM with inputs := [⟨false, false, 0x3000FF⟩] } : State).inputs = ⟨false, false, 0x3000FF⟩ :: [] := by
  decide

theorem test_witness_StoppedConsumerLeavesThePortIdle : (machine stateM).inputs = [] := by decide

theorem test_witness_presented_commands : -- ErrMeansIllegalWord, ResponseOfEveryCommand
    ∃ t u, step ((machine stateM).present 0x600000) = .next t ∧ t.rsp.err = true ∧
      step ((machine stateM).present 0x200000) = .next u ∧ u.rsp = ⟨false, 0x12⟩ :=
  ⟨_, _, rfl, by decide, rfl, by decide⟩

theorem test_witness_ResponseOfEveryCommand :
    decodeOp 0x200000#24 = some (.get8 .a) ∧ decodeOp 0x400000#24 = some (.get16 .sp) ∧
    decodeOp 0x3000FF#24 = some (.set8 .a 0xFF) ∧ decodeOp 0x500001#24 = some (.set16 .sp 1) ∧
    decodeOp 0x100000#24 = some .reset ∧ decodeOp 0x000000#24 = none := by decide

theorem test_witness_ResetRestoresTheResetState :
    (opField 0x110000#24).toNat = 1 ∧ 0x110000#24 ≠ 0x100000#24 ∧ decodeOp 0x110000#24 = none ∧
    (∃ t, step ((machine stateM).present 0x110000) = .next t) ∧ ∃ t, exec .reset (machine stateM) = .next t :=
  ⟨by decide, by decide, by decide, ⟨_, rfl⟩, ⟨_, rfl⟩⟩

theorem test_witness_Get8Operations :
    opField 0x200001#24 = opField 0x200000#24 ∧ selField 0x200001#24 = selField 0x200000#24 ∧
    dataField 0x200001#24 ≠ 0 ∧ (∃ t, exec (.setA 0xFF) (machine stateM) = .next t) ∧
    (∃ t, exec (.setAF 0x12FF) (machine stateM) = .next t) ∧ ∃ t, exec .getF (machine stateM) = .next t :=
  ⟨by decide, by decide, by decide, ⟨_, rfl⟩, ⟨_, rfl⟩, ⟨_, rfl⟩⟩

theorem test_witness_Get16Operations :
    opField 0x448000#24 = opField 0x440000#24 ∧ selField 0x448000#24 = selField 0x440000#24 ∧
    dataField 0x448000#24 ≠ 0 ∧
    (∃ t u, exec (.setD 0xFF) (machine stateM) = .next t ∧ exec (.setE 0) t = .next u) ∧
    (∃ t u, exec (.setE 0) (machine stateM) = .next t ∧ exec (.setD 0xFF) t = .next u) ∧
    (∃ t, exec .getAF (machine stateM) = .next t) ∧ (machine stateM).rf.Canonical :=
  ⟨by decide, by decide, by decide, ⟨_, _, rfl, rfl⟩, ⟨_, _, rfl, rfl⟩, ⟨_, rfl⟩, by decide⟩

theorem test_witness_Set8Operations :
    opField 0x350180#24 = opField 0x350000#24 ∧ selField 0x350180#24 = selField 0x350000#24 ∧
    hiByte (dataField 0x350180#24) ≠ 0 ∧ ∃ t, exec (.setF 0x80) (machine stateM) = .next t :=
  ⟨by decide, by decide, by decide, ⟨_, rfl⟩⟩

theorem test_witness_Set16Operations :
    opField 0x52FFFF#24 = opField 0x520000#24 ∧ selField 0x52FFFF#24 = selField 0x520000#24 ∧
    ∃ t, exec (.setAF 0xFFFF) (machine stateM) = .next t :=
  ⟨by decide, by decide, ⟨_, rfl⟩⟩

theorem test_witness_fields : -- FieldsAreReadAndWrittenAsTheTableSays, FieldIndependence
    (∃ t, exec (.setAF 0xFFFF) (machine stateM) = .next t ∧ t.rf.field .a ≠ (machine stateM).rf.field .a) ∧
    ¬ Instr.Writes (.setAF 0xFFFF) .b ∧ Instr.Writes (.setAF 0xFFFF) .f ∧
    (∃ t, exec .getA (machine stateM) = .next t) ∧ (∀ fld, Instr.Reads .getA fld → fld = .a) ∧
    (∀ fld, ¬ Instr.Writes .getA fld) ∧
    (∀ fld, Instr.Reads .getA fld → (machine stateM).rf.field fld = (machine { ones with a := 0x12 }).rf.field fld) ∧
    (∃ t, step { machine stateM with inputs := [⟨true, true, 0x3000FF⟩] } = .next t ∧
      t.rf.field .a ≠ (machine stateM).rf.field .a) ∧
    ∃ t, step ((machine stateM).present 0x3000FF) = .next t ∧ t.rf.field .a ≠ (machine stateM).rf.field .a :=
  ⟨⟨_, rfl, by decide⟩, by decide, by decide, ⟨_, rfl⟩, by intro fld; cases fld <;> decide,
    by intro fld; cases fld <;> decide, by intro fld; cases fld <;> decide, ⟨_, rfl, by decide⟩, ⟨_, rfl, by decide⟩⟩

theorem test_witness_FlagsChangeOnlyByTheirWriters :
    (∃ t, step ((machine stateM).present 0x350000) = .next t ∧ t.rf.f ≠ stateM.f) ∧
    (∃ t t', exec .getAF (machine stateM) = .next t ∧ exec .getAF (machine { stateM with f := 0x0F }) = .next t') ∧
    ∃ t t', exec .getA (machine stateM) = .next t ∧ exec .getA (machine { stateM with f := 0x0F }) = .next t' :=
  ⟨⟨_, rfl, by decide⟩, ⟨_, _, rfl, rfl⟩, ⟨_, _, rfl, rfl⟩⟩

theorem test_witness_StackPointerAndProgramCounterAreData :
    (∃ t, step ((machine stateM).present 0x500001) = .next t ∧ t.rf.sp ≠ stateM.sp) ∧
    (∃ t, step ((machine stateM).present 0x510150) = .next t ∧ t.rf.pc ≠ stateM.pc) ∧
    ∃ t t', step ((machine stateM).present 0x410000) = .next t ∧
      step ((machine { stateM with pc := 0 }).present 0x410000) = .next t' :=
  ⟨⟨_, rfl, by decide⟩, ⟨_, rfl, by decide⟩, ⟨_, _, rfl, rfl⟩⟩

theorem test_witness_halves : halves .af = some (.a, .f) ∧ halves .hl = some (.h, .l) := by decide

theorem test_witness_SetValueIsReturnedUntilTheNextWrite : -- getA and setB write neither F nor A, nor SP nor PC
    (∀ e ∈ [Event.word 0x200000, Event.word 0x3100FF], e.stores8 0xFF .f = none ∧ e.stores8 0xFF .a = none ∧
      e.storesSP = none ∧ e.storesPC = none) := by decide

theorem test_witness_OperationsAreIdempotent : ∃ t, exec (.setBC 0xABCD) (machine stateM) = .next t := ⟨_, rfl⟩

theorem test_witness_LastWriterWins :
    (∃ t, exec (Op.set8 .f 0xFF).toInstr (machine stateM) = .next t) ∧
    ∃ t u, exec (Op.set16 .hl 0x1234).toInstr (machine stateM) = .next t ∧ exec (Op.set8 .l 0xFF).toInstr t = .next u :=
  ⟨⟨_, rfl⟩, ⟨_, _, rfl, rfl⟩⟩

theorem test_witness_FaithfulConsumerKeepsFlagsCanonical :
    (facing 0x350050).CanonicalInv ∧ ∃ t, step (facing 0x350050) = .next t := ⟨by decide, ⟨_, rfl⟩⟩

theorem test_witness_CanonicalIsLostOnlyByNonzeroLowNibble :
    stateM.Canonical ∧ ¬ (applyEvent 0xFF (.word 0x3500FF) stateM).1.Canonical ∧
    ¬ (applyEvent 0xFF (.word 0x5212FF) stateM).1.Canonical := by decide

theorem test_witness_FaithfulRunsDoNotDependOnTheMask : -- the writes of P3
    ∀ e ∈ [Event.word 0x3500A0, Event.word 0x520040, Event.reset], e.faithful = true := by decide

theorem test_witness_LegalRunsNeverAnswerErr :
    (facing 0x350050).LegalInv ∧ ∃ t, step (facing 0x350050) = .next t := ⟨by decide, ⟨_, rfl⟩⟩

theorem test_witness_PortRunIsTheFoldOfTheEvents :
    (facing 0x350050).inputs[0]? = some (PortIn.command 0x350050) ∧ (PortIn.command 0x350050).event ≠ none ∧
    PortIn.idle.event = none := by decide

theorem test_witness_ResetInAStream :
    ({ machine stateM with inputs := [PortIn.command 0x3000FF, ⟨true, true, 0x3000FF⟩, PortIn.idle] } : State).inputs =
      [PortIn.command 0x3000FF] ++ ⟨true, true, 0x3000FF⟩ :: [PortIn.idle] := by decide

theorem test_witness_InstancesShareNothing :
    [machine stateM, machine ones][1]? = some (machine ones) ∧ (0 : Nat) ≠ 1 := by decide

theorem test_witness_calls :
    assemble (.set8 (.name .a) 255) = some (.set8 .a 0xFF) ∧ assemble (.set16 (.id 3) 0xABCD) = some (.set16 .bc 0xABCD) ∧
    assemble .newCPU = some .reset := by decide

theorem test_register_ids_at_their_ends : -- R52, R53: ids 0, 7 and 8; 0, 5 and 6
    regOf8 (.id 0) = some .a ∧ regOf8 (.id 7) = some .l ∧ regOf8 (.id 8) = none ∧
    regOf16 (.id 0) = some .sp ∧ regOf16 (.id 5) = some .hl ∧ regOf16 (.id 6) = none ∧
    assemble (.set8 (.id 7) 255) = some (.set8 .l 0xFF) ∧ assemble (.set16 (.id 5) 65535) = some (.set16 .hl 0xFFFF) := by
  decide

theorem test_hexadecimal_letters : -- R62: 0xAF; the small letters are log entry 14
    parseNumber ['0', 'x', 'A', 'F'] = some 175 ∧ parseNumber ['0', 'x', 'a', 'f'] = some 175 ∧
    parseNumber ['0', 'x', 'G'] = none ∧ parseNumber ['A', 'F'] = none := by decide

end Sys2Proof.Tests
end

section
/-! PROOFS. The family 00_scope: exec on the machine, `perform` on the generic forms, and the step that takes a command
word are one and the same operation (R9). -/

namespace Sys2Proof.Machine

/-! ### Generic forms and named operations (30_encoding R63) -/

/-- A generic form is the generic form of the operation it names. -/
@[simp] theorem toOp_toInstr (op : Op) : op.toInstr.toOp = op := by
  cases op with
  | reset => rfl
  | get8 r => cases r <;> rfl
  | set8 r v => cases r <;> rfl
  | get16 q => cases q <;> rfl
  | set16 q v => cases q <;> rfl

/-- The state a performed operation leads to, in terms of `perform`. -/
theorem State.performed_eq_perform (s : State) (op : Op) :
    s.performed op = { s with
      rf := (perform Config.fWmask op s.rf).1, rsp := ⟨false, (perform Config.fWmask op s.rf).2⟩ } :=
  State.ext_fields (s.performed_rf op) (s.performed_rsp op) (s.performed_inputs op)

/-! ### The cycle that takes a command word (30_encoding R65) -/

/-- The state a cycle with a command word leads to, in terms of `execWord`. -/
theorem State.afterCycle_word_eq_execWord (s : State) (w : CommandWord) :
    s.afterCycle (some (.word w)) = { s with
      rf := (execWord Config.fWmask w s.rf).1, rsp := (execWord Config.fWmask w s.rf).2 } :=
  State.ext_fields (s.afterCycle_event_rf (.word w)) (s.afterCycle_event_rsp (.word w)) (s.afterCycle_inputs _)

/-- A fetch from a list of coming cycles that is not empty. -/
theorem State.fetch_of_inputs_cons {s : State} {p : PortIn} {rest : List PortIn} (h : s.inputs = p :: rest) :
    s.fetch = (p, { s with inputs := rest }) := by
  simp only [State.fetch, h]

/-- A cycle whose event is a word that decodes to `i` performs exec of `i` on the state with that cycle taken off. -/
theorem step_of_decode {s : State} {w : CommandWord} {i : Instr} (he : s.fetch.1.event = some (.word w))
    (hd : decode w = .op i) : step s = exec i s.fetch.2 := by
  simp only [step, he, hd]

/-! ### The obligations -/

/-- Settles O26: exec and `perform` are compared field by field through `State.performed`, the step and `execWord`
through `State.afterCycle`. -/
theorem namedOperationsAreTheirGenericForms : Obligations.NamedOperationsAreTheirGenericForms := by
  unfold Obligations.NamedOperationsAreTheirGenericForms
  refine ⟨fun i s => ?_, toOp_toInstr, fun w s => ?_⟩
  · rw [exec_eq, State.performed_eq_perform]
  · rw [step_present, State.afterCycle_word_eq_execWord]

/-- Settles O8: the pins at the head of the list ask for the word `w`, and the step hands its operation to exec. -/
theorem stepPerformsTheDecodedOperation : Obligations.StepPerformsTheDecodedOperation := by
  unfold Obligations.StepPerformsTheDecodedOperation
  intro s w i rest hinputs hdecode
  have hfetch : s.fetch = (PortIn.command w, { s with inputs := rest }) := State.fetch_of_inputs_cons hinputs
  have hevent : s.fetch.1.event = some (.word w) := by rw [hfetch, PortIn.command_event]
  rw [step_of_decode hevent hdecode, hfetch]

end Sys2Proof.Machine
end

section
/-! PROOFS. The family 10_state. What an operation does to a register is what `Op.stores8`, `Op.storesSP` and
`Op.storesPC` of Safety.lean say that it stores there, else nothing (R28); the statements about fields, flags, pairs and
runs are read off from that. -/

namespace Sys2Proof.Machine

/-! ### What an operation leaves in a register -/

/-- An 8-bit register after an operation: what the operation stores in it, else its old value. -/
theorem perform_read8 (m : Byte) (op : Op) (r : Reg8) (rf : RegFile) :
    (perform m op rf).1.read8 r = (op.stores8 m r).getD (rf.read8 r) := by
  cases op with
  | reset => rfl
  | get8 r' => rfl
  | get16 q => rfl
  | set8 r' v =>
    by_cases h : r' = r
    · subst h
      simp [perform, Op.stores8, RegFile.read8_write8_same, maskF]
    · simp [perform, Op.stores8, h, RegFile.read8_write8_other m (Ne.symm h)]
  | set16 q v => cases q <;> cases r <;> rfl

/-- SP after an operation. -/
theorem perform_sp (m : Byte) (op : Op) (rf : RegFile) : (perform m op rf).1.sp = op.storesSP.getD rf.sp := by
  cases op with
  | reset => rfl
  | get8 r => rfl
  | get16 q => rfl
  | set8 r v => exact RegFile.write8_sp m r v rf
  | set16 q v => cases q <;> rfl

/-- PC after an operation. -/
theorem perform_pc (m : Byte) (op : Op) (rf : RegFile) : (perform m op rf).1.pc = op.storesPC.getD rf.pc := by
  cases op with
  | reset => rfl
  | get8 r => rfl
  | get16 q => rfl
  | set8 r v => exact RegFile.write8_pc m r v rf
  | set16 q v => cases q <;> rfl

/-- A word that spells an operation performs it and answers without error. -/
theorem execWord_of_decodeOp {w : CommandWord} {op : Op} (h : decodeOp w = some op) (m : Byte) (rf : RegFile) :
    execWord m w rf = ((perform m op rf).1, ⟨false, (perform m op rf).2⟩) := by
  simp only [execWord, h]

/-- A word that spells none leaves the register file and answers the error (60 R103). -/
theorem execWord_of_decodeOp_none {w : CommandWord} (h : decodeOp w = none) (m : Byte) (rf : RegFile) :
    execWord m w rf = (rf, ⟨true, 0⟩) := by
  simp only [execWord, h]

/-- An 8-bit register after an event of a run. -/
theorem applyEvent_read8 (m : Byte) (e : Event) (r : Reg8) (rf : RegFile) :
    (applyEvent m e rf).1.read8 r = (e.stores8 m r).getD (rf.read8 r) := by
  cases e with
  | reset => rfl
  | word w =>
    cases h : decodeOp w with
    | none => simp [applyEvent, execWord_of_decodeOp_none h, Event.stores8, h]
    | some op => simp [applyEvent, execWord_of_decodeOp h, Event.stores8, h, perform_read8]

/-- SP after an event of a run. -/
theorem applyEvent_sp (m : Byte) (e : Event) (rf : RegFile) :
    (applyEvent m e rf).1.sp = e.storesSP.getD rf.sp := by
  cases e with
  | reset => rfl
  | word w =>
    cases h : decodeOp w with
    | none => simp [applyEvent, execWord_of_decodeOp_none h, Event.storesSP, h]
    | some op => simp [applyEvent, execWord_of_decodeOp h, Event.storesSP, h, perform_sp]

/-- PC after an event of a run. -/
theorem applyEvent_pc (m : Byte) (e : Event) (rf : RegFile) :
    (applyEvent m e rf).1.pc = e.storesPC.getD rf.pc := by
  cases e with
  | reset => rfl
  | word w =>
    cases h : decodeOp w with
    | none => simp [applyEvent, execWord_of_decodeOp_none h, Event.storesPC, h]
    | some op => simp [applyEvent, execWord_of_decodeOp h, Event.storesPC, h, perform_pc]

/-! ### What is stored in F (R25, R26) -/

/-- The decoder reads an operation exactly when R55's arms give its generic form. -/
theorem decode_eq_op_iff (w : CommandWord) (i : Instr) : decode w = .op i ↔ decodeOp w = some i.toOp := by
  cases h : decodeOp w with
  | none => simp [decode_of_decodeOp_none h]
  | some op =>
    rw [decode_of_decodeOp h, Decoded.op.injEq, Option.some.injEq]
    exact ⟨fun hi => by rw [← hi, toOp_toInstr], fun hop => by rw [hop, toInstr_toOp]⟩

/-- What an operation stores in F comes from `reset`, `setF` or `setAF`. -/
theorem stores8_f_eq_some {m : Byte} {op : Op} {v : Byte} (h : op.stores8 m .f = some v) :
    (op = .reset ∧ v = 0xB0) ∨ (∃ u, op = .set8 .f u ∧ v = u &&& m) ∨
      ∃ u, op = .set16 .af u ∧ v = loByte u &&& m := by
  cases op with
  | reset => cases h; exact .inl ⟨rfl, rfl⟩
  | get8 r => cases h
  | get16 q => cases h
  | set8 r u => cases r <;> cases h; exact .inr (.inl ⟨u, rfl, rfl⟩)
  | set16 q u => cases q <;> cases h; exact .inr (.inr ⟨u, rfl, rfl⟩)

/-- The event of a word stores what the word's operation stores. -/
theorem Event.stores8_word {m : Byte} {r : Reg8} {w : CommandWord} {op : Op} (h : decodeOp w = some op) :
    (Event.word w).stores8 m r = op.stores8 m r := by
  simp [Event.stores8, h]

/-- What an event stores in a register: the reset value, or what the operation of its word stores. -/
theorem event_stores8_eq_some {m : Byte} {r : Reg8} {e : Event} {v : Byte} (h : e.stores8 m r = some v) :
    (e = .reset ∧ v = RegFile.reset.read8 r) ∨
      ∃ w op, e = .word w ∧ decodeOp w = some op ∧ op.stores8 m r = some v := by
  cases e with
  | reset => cases h; exact .inl ⟨rfl, rfl⟩
  | word w =>
    obtain ⟨op, hop, hv⟩ := Option.bind_eq_some_iff.mp h
    exact .inr ⟨w, op, rfl, hop, hv⟩

/-- The low nibble of a masked value is the masked low nibble. -/
theorem lowNibble_and (v m : Byte) : lowNibble (v &&& m) = lowNibble v &&& lowNibble m :=
  BitVec.extractLsb'_and

/-- A mask does not make a zero low nibble nonzero. -/
theorem lowNibble_and_of_zero {v : Byte} (h : lowNibble v = 0) (m : Byte) : lowNibble (v &&& m) = 0 := by
  rw [lowNibble_and, h]; exact BitVec.zero_and

/-- A faithful operation stores no nonzero low nibble in F, whatever the mask. -/
theorem lowNibble_of_faithful_op {m : Byte} {op : Op} {v : Byte} (hop : op.faithful = true)
    (hv : op.stores8 m .f = some v) : lowNibble v = 0 := by
  obtain ⟨rfl, rfl⟩ | ⟨u, rfl, rfl⟩ | ⟨u, rfl, rfl⟩ := stores8_f_eq_some hv
  · rfl
  · exact lowNibble_and_of_zero (eq_of_beq hop) m
  · exact lowNibble_and_of_zero (eq_of_beq hop) m

/-- The operation of a faithful consumer's word is faithful. -/
theorem faithful_of_decodeOp {w : CommandWord} {op : Op} (he : (Event.word w).faithful = true)
    (hop : decodeOp w = some op) : op.faithful = true := by
  simpa [Event.faithful, hop] using he

/-- A faithful event stores no nonzero low nibble in F, whatever the mask. -/
theorem lowNibble_of_faithful_event {m : Byte} {e : Event} {v : Byte} (he : e.faithful = true)
    (hv : e.stores8 m .f = some v) : lowNibble v = 0 := by
  obtain ⟨rfl, rfl⟩ | ⟨w, op, rfl, hop, hv⟩ := event_stores8_eq_some hv
  · rfl
  · exact lowNibble_of_faithful_op (faithful_of_decodeOp he hop) hv

/-- Under mask 0xF0 no event stores a nonzero low nibble in F. -/
theorem lowNibble_of_stores8_f0 {e : Event} {v : Byte} (hv : e.stores8 0xF0 .f = some v) : lowNibble v = 0 := by
  have hmask (u : Byte) : lowNibble (u &&& 0xF0) = 0 := by
    rw [lowNibble_and]; exact BitVec.and_zero
  obtain ⟨rfl, rfl⟩ | ⟨w, op, rfl, hop, hv⟩ := event_stores8_eq_some hv
  · rfl
  · obtain ⟨-, rfl⟩ | ⟨u, -, rfl⟩ | ⟨u, -, rfl⟩ := stores8_f_eq_some hv
    · rfl
    · exact hmask u
    · exact hmask (loByte u)

/-! ### Canonical flags (R26, R27) -/

/-- The reset state is canonical. -/
theorem canonical_reset : RegFile.reset.Canonical := by decide

/-- From a canonical state, an event loses Canonical exactly when it stores a nonzero low nibble in F. -/
theorem not_canonical_applyEvent_iff (m : Byte) (e : Event) {rf : RegFile} (hrf : rf.Canonical) :
    ¬ (applyEvent m e rf).1.Canonical ↔ ∃ v, e.stores8 m .f = some v ∧ lowNibble v ≠ 0 := by
  have hf : (applyEvent m e rf).1.f = (e.stores8 m .f).getD rf.f := applyEvent_read8 m e .f rf
  rw [RegFile.Canonical, hf]
  cases e.stores8 m .f with
  | none => exact iff_of_false (not_not_intro hrf) (by simp)
  | some v => simp

/-- An event that stores no nonzero low nibble in F keeps Canonical. -/
theorem canonical_applyEvent {m : Byte} {e : Event} {rf : RegFile} (hrf : rf.Canonical)
    (he : ∀ v, e.stores8 m .f = some v → lowNibble v = 0) : (applyEvent m e rf).1.Canonical := by
  by_contra hlost
  obtain ⟨v, hv, hne⟩ := (not_canonical_applyEvent_iff m e hrf).mp hlost
  exact hne (he v hv)

/-- A run under mask 0xF0 keeps Canonical. -/
theorem canonical_runEvents_f0 (es : List Event) {rf : RegFile} (hrf : rf.Canonical) :
    (runEvents 0xF0 es rf).Canonical := by
  induction es generalizing rf with
  | nil => exact hrf
  | cons e es ih => exact ih (canonical_applyEvent hrf fun _ => lowNibble_of_stores8_f0)

/-- The event of the cycle performed is the first event of the schedule. -/
theorem State.eventsOf_inputs (s : State) :
    eventsOf s.inputs = s.fetch.1.event.toList ++ eventsOf s.fetch.2.inputs := by
  cases h : s.inputs with
  | nil => simp [State.fetch, h]
  | cons p rest => cases hp : p.event <;> simp [State.fetch, h, eventsOf, hp]

/-- Settles O35: what is left of the schedule is faithful because the whole schedule is, and the event of the cycle
performed, a faithful one, stores no nonzero low nibble in F. -/
theorem faithfulConsumerKeepsFlagsCanonical : Obligations.FaithfulConsumerKeepsFlagsCanonical := by
  unfold Obligations.FaithfulConsumerKeepsFlagsCanonical
  rintro s t ⟨hcanonical, hfaithful⟩ hstep
  rw [State.eventsOf_inputs] at hfaithful
  obtain rfl : s.fetch.2.afterCycle s.fetch.1.event = t := by simpa [step_eq] using hstep
  refine ⟨?_, fun e he => hfaithful e (List.mem_append_right _ (by simpa using he))⟩
  have hfetched : s.fetch.2.rf.Canonical := by rwa [State.fetch_rf]
  cases hevent : s.fetch.1.event with
  | none => exact hfetched
  | some e =>
    have he : e.faithful = true := hfaithful e (by simp [hevent])
    rw [RegFile.Canonical, State.afterCycle_event_rf]
    exact canonical_applyEvent hfetched fun _ => lowNibble_of_faithful_event he

/-- Settles O36: an event loses Canonical exactly by storing a nonzero low nibble in F, and what is stored in F comes
from `setF`, `setAF` or a reset. -/
theorem canonicalIsLostOnlyByNonzeroLowNibble : Obligations.CanonicalIsLostOnlyByNonzeroLowNibble := by
  unfold Obligations.CanonicalIsLostOnlyByNonzeroLowNibble
  refine ⟨canonical_reset, fun rf e hrf => ?_, fun m rf => ⟨canonical_reset, ?_⟩,
    fun rf es => canonical_runEvents_f0 es⟩
  · have hstored (u : Byte) : u &&& 0xFF = u := maskF_normative u
    rw [not_canonical_applyEvent_iff 0xFF e hrf]
    constructor
    · rintro ⟨v, hv, hne⟩
      obtain ⟨rfl, rfl⟩ | ⟨w, op, rfl, hop, hv⟩ := event_stores8_eq_some hv
      · exact absurd rfl hne
      · refine ⟨w, rfl, ?_⟩
        simp only [decode_eq_op_iff, hop]
        obtain ⟨rfl, rfl⟩ | ⟨u, rfl, rfl⟩ | ⟨u, rfl, rfl⟩ := stores8_f_eq_some hv
        · exact absurd rfl hne
        · exact .inl ⟨u, rfl, by rwa [hstored] at hne⟩
        · exact .inr ⟨u, rfl, by rwa [hstored] at hne⟩
    · rintro ⟨w, rfl, ⟨v, hw, hne⟩ | ⟨v, hw, hne⟩⟩ <;> rw [decode_eq_op_iff] at hw
      · exact ⟨v, (Event.stores8_word hw).trans (congrArg some (hstored v)), hne⟩
      · exact ⟨loByte v, (Event.stores8_word hw).trans (congrArg some (hstored (loByte v))), hne⟩
  · have hreset : decodeOp 0x100000#24 = some .reset := rfl
    rw [applyEvent, execWord_of_decodeOp hreset]
    exact canonical_reset

/-! ### The ten fields (R13, R17) -/

/-- The field that an 8-bit register is. -/
def fieldOf8 : Reg8 → Field
  | .a => .a | .b => .b | .c => .c | .d => .d | .e => .e | .f => .f | .h => .h | .l => .l

/-- A field is an 8-bit register, SP or PC. -/
theorem field_cases (fld : Field) : (∃ r, fld = fieldOf8 r) ∨ fld = .sp ∨ fld = .pc := by
  cases fld with
  | a => exact .inl ⟨.a, rfl⟩
  | b => exact .inl ⟨.b, rfl⟩
  | c => exact .inl ⟨.c, rfl⟩
  | d => exact .inl ⟨.d, rfl⟩
  | e => exact .inl ⟨.e, rfl⟩
  | f => exact .inl ⟨.f, rfl⟩
  | h => exact .inl ⟨.h, rfl⟩
  | l => exact .inl ⟨.l, rfl⟩
  | sp => exact .inr (.inl rfl)
  | pc => exact .inr (.inr rfl)

@[simp] theorem RegFile.field_fieldOf8 (rf : RegFile) (r : Reg8) : rf.field (fieldOf8 r) = zext16 (rf.read8 r) := by
  cases r <;> rfl

/-- Zero extension loses nothing. -/
theorem zext16_inj {v w : Byte} : zext16 v = zext16 w ↔ v = w :=
  ⟨fun h => by rw [← loByte_zext16 v, h, loByte_zext16], fun h => by rw [h]⟩

/-- The ten fields determine the register file. -/
theorem RegFile.ext_field {rf rf' : RegFile} (h : ∀ fld, rf.field fld = rf'.field fld) : rf = rf' :=
  RegFile.ext_read (fun r => zext16_inj.mp (by simpa using h (fieldOf8 r))) (h .sp) (h .pc)

/-- What an operation stores in a field, if it writes it, an 8-bit value zero-extended. -/
def storesField (m : Byte) (op : Op) : Field → Option Word
  | .a => (op.stores8 m .a).map zext16
  | .b => (op.stores8 m .b).map zext16
  | .c => (op.stores8 m .c).map zext16
  | .d => (op.stores8 m .d).map zext16
  | .e => (op.stores8 m .e).map zext16
  | .f => (op.stores8 m .f).map zext16
  | .h => (op.stores8 m .h).map zext16
  | .l => (op.stores8 m .l).map zext16
  | .sp => op.storesSP
  | .pc => op.storesPC

@[simp] theorem storesField_fieldOf8 (m : Byte) (op : Op) (r : Reg8) :
    storesField m op (fieldOf8 r) = (op.stores8 m r).map zext16 := by
  cases r <;> rfl

/-- A field after an operation: what the operation stores in it, else its old value. -/
theorem perform_field (m : Byte) (op : Op) (fld : Field) (rf : RegFile) :
    (perform m op rf).1.field fld = (storesField m op fld).getD (rf.field fld) := by
  obtain ⟨r, rfl⟩ | rfl | rfl := field_cases fld
  · rw [RegFile.field_fieldOf8, RegFile.field_fieldOf8, storesField_fieldOf8, perform_read8, Option.getD_map]
  · exact perform_sp m op rf
  · exact perform_pc m op rf

/-- The column "written by" of R17 lists exactly the operations that store something in the field: the one place where
the table is compared with the operations, entry by entry. -/
theorem writes_iff_storesField (m : Byte) (op : Op) (fld : Field) :
    op.toInstr.Writes fld ↔ (storesField m op fld).isSome = true := by
  cases op with
  | reset => cases fld <;> exact iff_of_true (by decide) rfl
  | get8 r => cases r <;> cases fld <;> exact iff_of_false (by decide) Bool.false_ne_true
  | get16 q => cases q <;> cases fld <;> exact iff_of_false (by decide) Bool.false_ne_true
  | set8 r v =>
    cases r <;> cases fld <;>
      simp [Instr.Writes, Op.toInstr, Instr.blank, Field.writers, storesField, Op.stores8, Op.storesSP, Op.storesPC]
  | set16 q v =>
    cases q <;> cases fld <;>
      simp [Instr.Writes, Op.toInstr, Instr.blank, Field.writers, storesField, Op.stores8, Op.storesSP, Op.storesPC]

/-- A field that an operation does not write keeps its value (R28). -/
theorem perform_field_of_not_writes {op : Op} {fld : Field} (h : ¬ op.toInstr.Writes fld) (m : Byte) (rf : RegFile) :
    (perform m op rf).1.field fld = rf.field fld := by
  rw [writes_iff_storesField m, Option.not_isSome_iff_eq_none] at h
  rw [perform_field, h, Option.getD_none]

/-- The value of a written field does not depend on the state. -/
theorem perform_field_of_writes {op : Op} {fld : Field} (h : op.toInstr.Writes fld) (m : Byte) (rf rf' : RegFile) :
    (perform m op rf).1.field fld = (perform m op rf').1.field fld := by
  rw [writes_iff_storesField m] at h
  obtain ⟨v, hv⟩ := Option.isSome_iff_exists.mp h
  rw [perform_field, perform_field, hv, Option.getD_some, Option.getD_some]

/-- A field after an operation depends on no other field. -/
theorem perform_field_congr {fld : Field} {rf rf' : RegFile} (h : rf.field fld = rf'.field fld) (m : Byte) (op : Op) :
    (perform m op rf).1.field fld = (perform m op rf').1.field fld := by
  rw [perform_field, perform_field, h]

/-! ### Pairs and their halves (R19 to R22) -/

/-- An r16 name is SP, PC or a pair. -/
theorem halves_cases (q : Reg16) : q = .sp ∨ q = .pc ∨ ∃ hi lo, halves q = some (hi, lo) := by
  cases q with
  | sp => exact .inl rfl
  | pc => exact .inr (.inl rfl)
  | af => exact .inr (.inr ⟨_, _, rfl⟩)
  | bc => exact .inr (.inr ⟨_, _, rfl⟩)
  | de => exact .inr (.inr ⟨_, _, rfl⟩)
  | hl => exact .inr (.inr ⟨_, _, rfl⟩)

section
variable {q : Reg16} {hi lo : Reg8} (h : halves q = some (hi, lo))
include h

/-- The halves of a pair are two registers. -/
theorem halves_ne : hi ≠ lo := by
  cases q <;> cases h <;> decide

/-- F is the high half of no pair. -/
theorem halves_hi_ne_f : hi ≠ .f := by
  cases q <;> cases h <;> decide

/-- A pair read is its two halves. -/
theorem RegFile.read16_of_halves (rf : RegFile) : rf.read16 q = pair (rf.read8 hi) (rf.read8 lo) := by
  cases q <;> cases h <;> rfl

/-- A pair write is the writes of its two halves, the high one first. -/
theorem RegFile.write16_of_halves (m : Byte) (v : Word) (rf : RegFile) :
    rf.write16 m q v = (rf.write8 m hi (hiByte v)).write8 m lo (loByte v) := by
  cases q <;> cases h <;> rfl

/-- The table of R17 lists a pair read as a reader of both halves. -/
theorem reads_halves : (Op.get16 q).toInstr.Reads (fieldOf8 hi) ∧ (Op.get16 q).toInstr.Reads (fieldOf8 lo) := by
  cases q <;> cases h <;> decide

end

/-- The table of R17 lists an 8-bit read as a reader of its register. -/
theorem reads_get8 (r : Reg8) : (Op.get8 r).toInstr.Reads (fieldOf8 r) := by
  cases r <;> decide

/-- The response of an operation depends only on the fields that R17 lists as read by it. -/
theorem perform_data_of_reads {op : Op} {rf rf' : RegFile}
    (h : ∀ fld, op.toInstr.Reads fld → rf.field fld = rf'.field fld) (m : Byte) :
    (perform m op rf).2 = (perform m op rf').2 := by
  cases op with
  | reset => rfl
  | set8 r v => rfl
  | set16 q v => rfl
  | get8 r => simpa [perform] using h _ (reads_get8 r)
  | get16 q =>
    obtain rfl | rfl | ⟨hi, lo, hq⟩ := halves_cases q
    · exact h .sp (by decide)
    · exact h .pc (by decide)
    · have hread (r : Reg8) (hr : (Op.get16 q).toInstr.Reads (fieldOf8 r)) : rf.read8 r = rf'.read8 r :=
        zext16_inj.mp (by simpa using h _ hr)
      simp only [perform, RegFile.read16_of_halves hq, hread hi (reads_halves hq).1, hread lo (reads_halves hq).2]

/-! ### Fields through exec and step -/

/-- The register file and the response that exec of an operation leaves. -/
theorem exec_next {i : Instr} {s t : State} (h : exec i s = .next t) :
    t.rf = (perform Config.fWmask i.toOp s.rf).1 ∧ t.rsp = ⟨false, (perform Config.fWmask i.toOp s.rf).2⟩ := by
  rw [exec_eq] at h
  cases h
  exact ⟨State.performed_rf s _, State.performed_rsp s _⟩

/-- exec leaves a field that the operation does not write. -/
theorem exec_field_of_not_writes {i : Instr} {s t : State} {fld : Field} (h : exec i s = .next t)
    (hw : ¬ i.Writes fld) : t.rf.field fld = s.rf.field fld := by
  rw [(exec_next h).1]
  exact perform_field_of_not_writes (by rwa [toInstr_toOp]) _ _

/-- What exec responds depends only on the fields the operation reads. -/
theorem exec_rsp_of_reads {i : Instr} {s s' t t' : State} (h : exec i s = .next t) (h' : exec i s' = .next t')
    (hr : ∀ fld, i.Reads fld → s.rf.field fld = s'.rf.field fld) : t.rsp = t'.rsp := by
  rw [(exec_next h).2, (exec_next h').2, perform_data_of_reads (by rwa [toInstr_toOp])]

/-- A cycle with an event stands at the head of the list. -/
theorem State.inputs_of_event {s : State} {e : Event} (h : s.fetch.1.event = some e) :
    ∃ p rest, s.inputs = p :: rest ∧ p.event = some e := by
  rw [State.fetch_pins] at h
  cases hin : s.inputs with
  | nil => simp [hin] at h
  | cons p rest => exact ⟨p, rest, rfl, by simpa [hin] using h⟩

/-- A field that a step changes is written by the event of its cycle (R28). -/
theorem step_field_changed {s t : State} {fld : Field} (h : step s = .next t) (hne : t.rf.field fld ≠ s.rf.field fld) :
    ∃ p rest, s.inputs = p :: rest ∧
      (p.event = some .reset ∨ ∃ w i, p.event = some (.word w) ∧ decode w = .op i ∧ i.Writes fld) := by
  obtain ⟨-, rfl⟩ | ⟨he, rfl⟩ | ⟨w, op, he, hop, rfl⟩ | ⟨w, -, -, rfl⟩ := step_cases h
  · exact absurd (by simp) hne
  · obtain ⟨p, rest, hin, hp⟩ := State.inputs_of_event he
    exact ⟨p, rest, hin, .inl hp⟩
  · obtain ⟨p, rest, hin, hp⟩ := State.inputs_of_event he
    refine ⟨p, rest, hin, .inr ⟨w, op.toInstr, hp, decode_of_decodeOp hop, ?_⟩⟩
    by_contra hw
    exact hne (by simp [perform_field_of_not_writes hw])
  · exact absurd (by simp) hne

/-- A step that changes a field has the reset pin high, or a command on the port of which `P`, true of every word
whose operation writes the field, holds. -/
theorem step_field_changed_pins {fld : Field} {P : CommandWord → Prop}
    (hP : ∀ w i, decode w = .op i → i.Writes fld → P w) {s t : State} (h : step s = .next t)
    (hne : t.rf.field fld ≠ s.rf.field fld) :
    ∃ p rest, s.inputs = p :: rest ∧ (p.rst = true ∨ (p.cmdValid = true ∧ P p.cmd)) := by
  obtain ⟨p, rest, hin, hp | ⟨w, i, hp, hd, hw⟩⟩ := step_field_changed h hne
  · exact ⟨p, rest, hin, .inl (PortIn.rst_of_event hp)⟩
  · obtain ⟨hvalid, rfl⟩ := PortIn.cmd_of_event hp
    exact ⟨p, rest, hin, .inr ⟨hvalid, hP _ i hd hw⟩⟩

/-- A field after a cycle depends on no other field. -/
theorem State.afterCycle_field_congr {s s' : State} {fld : Field} (h : s.rf.field fld = s'.rf.field fld)
    (e : Option Event) : (s.afterCycle e).rf.field fld = (s'.afterCycle e).rf.field fld := by
  match e with
  | none => exact h
  | some .reset => rfl
  | some (.word w) =>
    rw [State.afterCycle_event_rf, State.afterCycle_event_rf]
    cases hd : decodeOp w with
    | none => simpa [applyEvent, execWord_of_decodeOp_none hd] using h
    | some op => simpa [applyEvent, execWord_of_decodeOp hd] using perform_field_congr h _ op

/-! ### The writers of F, SP and PC (R15, R25) -/

/-- The writers of F. -/
theorem decode_of_writes_f (w : CommandWord) (i : Instr) (hd : decode w = .op i) (hw : i.Writes .f) :
    decode w = .op .reset ∨ (∃ v, decode w = .op (.setF v)) ∨ ∃ v, decode w = .op (.setAF v) := by
  cases i with
  | reset => exact .inl hd
  | setF v => exact .inr (.inl ⟨v, hd⟩)
  | setAF v => exact .inr (.inr ⟨v, hd⟩)
  | _ => simp [Instr.Writes, Instr.blank, Field.writers] at hw

/-- The writers of SP. -/
theorem decode_of_writes_sp (w : CommandWord) (i : Instr) (hd : decode w = .op i) (hw : i.Writes .sp) :
    decode w = .op .reset ∨ ∃ v, decode w = .op (.setSP v) := by
  cases i with
  | reset => exact .inl hd
  | setSP v => exact .inr ⟨v, hd⟩
  | _ => simp [Instr.Writes, Instr.blank, Field.writers] at hw

/-- The writers of PC. -/
theorem decode_of_writes_pc (w : CommandWord) (i : Instr) (hd : decode w = .op i) (hw : i.Writes .pc) :
    decode w = .op .reset ∨ ∃ v, decode w = .op (.setPC v) := by
  cases i with
  | reset => exact .inl hd
  | setPC v => exact .inr ⟨v, hd⟩
  | _ => simp [Instr.Writes, Instr.blank, Field.writers] at hw

/-- The readers of F. -/
theorem eq_of_reads_f {i : Instr} (h : i.Reads .f) : i = .getF ∨ i = .getAF := by
  cases i with
  | getF => exact .inl rfl
  | getAF => exact .inr rfl
  | _ => simp [Instr.Reads, Instr.blank, Field.readers] at h

/-- Replacing F leaves every other field. -/
theorem RegFile.field_replace_f {fld : Field} (h : fld ≠ .f) (g : Byte) (rf : RegFile) :
    RegFile.field { rf with f := g } fld = rf.field fld := by
  cases fld with
  | f => exact absurd rfl h
  | _ => rfl

/-- Replacing PC leaves every other field. -/
theorem RegFile.field_replace_pc {fld : Field} (h : fld ≠ .pc) (v : Word) (rf : RegFile) :
    RegFile.field { rf with pc := v } fld = rf.field fld := by
  cases fld with
  | pc => exact absurd rfl h
  | _ => rfl

/-- Register files that differ in F alone are equal once F is. -/
theorem RegFile.replace_f_eq {rf rf' : RegFile} (h : ∀ fld, fld ≠ .f → rf'.field fld = rf.field fld) :
    { rf' with f := rf.f } = rf := by
  refine RegFile.ext_field fun fld => ?_
  by_cases hf : fld = .f
  · rw [hf]; rfl
  · rw [RegFile.field_replace_f hf, h fld hf]

/-- Register files that differ in PC alone are equal once PC is. -/
theorem RegFile.replace_pc_eq {rf rf' : RegFile} (h : ∀ fld, fld ≠ .pc → rf'.field fld = rf.field fld) :
    { rf' with pc := rf.pc } = rf := by
  refine RegFile.ext_field fun fld => ?_
  by_cases hpc : fld = .pc
  · rw [hpc]; rfl
  · rw [RegFile.field_replace_pc hpc, h fld hpc]

/-! ### The obligations about fields -/

/-- Settles O27: an operation stores a value of its own in each field it is listed to write, and its response is
computed from the registers it is listed to read. -/
theorem fieldsAreReadAndWrittenAsTheTableSays : Obligations.FieldsAreReadAndWrittenAsTheTableSays := by
  unfold Obligations.FieldsAreReadAndWrittenAsTheTableSays
  refine ⟨fun i s t fld h hw => exec_field_of_not_writes h hw, fun i s s' t t' h h' hr => ?_, fun s fld => rfl,
    fun fld => ?_⟩
  · refine ⟨exec_rsp_of_reads h h' hr, fun fld hw => ?_⟩
    rw [(exec_next h).1, (exec_next h').1]
    exact perform_field_of_writes (by rwa [toInstr_toOp]) _ _ _
  · obtain ⟨r, rfl⟩ | rfl | rfl := field_cases fld
    · exact ⟨⟨_, reads_get8 r⟩, (Op.set8 r 0).toInstr, by cases r <;> decide, by cases r <;> decide⟩
    · exact ⟨⟨.getSP, by decide⟩, .setSP 0, by decide, by decide⟩
    · exact ⟨⟨.getPC, by decide⟩, .setPC 0, by decide, by decide⟩

/-- Settles O28: the frame of exec, field by field, and the event of the cycle for a step. -/
theorem fieldIndependence : Obligations.FieldIndependence := by
  unfold Obligations.FieldIndependence
  refine ⟨fun i s t h hw => ?_, fun i s t fld h hne => ?_, fun s t fld => step_field_changed⟩
  · exact RegFile.ext_field fun fld => exec_field_of_not_writes h (hw fld)
  · by_contra hw
    exact hne (exec_field_of_not_writes h hw)

/-- Settles O29: a changed F has a writer of F on the pins, and no operation's other fields depend on F. -/
theorem flagsChangeOnlyByTheirWriters : Obligations.FlagsChangeOnlyByTheirWriters := by
  unfold Obligations.FlagsChangeOnlyByTheirWriters
  refine ⟨fun s => ⟨_, _, exec_eq _ _, rfl, step_eq _, rfl⟩, fun v s => ⟨_, exec_eq _ _, maskF_normative v⟩,
    fun v s => ⟨_, exec_eq _ _, maskF_normative (loByte v)⟩, fun s t h hne => ?_, fun i s g t t' h h' => ?_⟩
  · have hfield : t.rf.field .f ≠ s.rf.field .f := fun heq => hne (zext16_inj.mp heq)
    exact step_field_changed_pins decode_of_writes_f h hfield
  · constructor
    · refine RegFile.replace_f_eq fun fld hf => ?_
      rw [(exec_next h).1, (exec_next h').1]
      exact perform_field_congr (RegFile.field_replace_f hf g s.rf) _ _
    · intro hgetF hgetAF
      refine exec_rsp_of_reads h' h fun fld hr => RegFile.field_replace_f ?_ g s.rf
      rintro rfl
      exact (eq_of_reads_f hr).elim hgetF hgetAF

/-- Settles O30: a changed SP or PC has its writer on the pins; which cycle is taken depends on the schedule alone, and
no other field on PC. -/
theorem stackPointerAndProgramCounterAreData : Obligations.StackPointerAndProgramCounterAreData := by
  unfold Obligations.StackPointerAndProgramCounterAreData
  refine ⟨fun s t h hne => ?_, fun s t h hne => ?_, fun s v t t' h h' => ?_⟩
  · exact step_field_changed_pins decode_of_writes_sp h hne
  · exact step_field_changed_pins decode_of_writes_pc h hne
  · rw [step_eq] at h h'
    cases h
    cases h'
    refine ⟨by simp, RegFile.replace_pc_eq fun fld hpc => ?_⟩
    rw [State.fetch_pins, State.fetch_pins]
    exact State.afterCycle_field_congr (by simpa using RegFile.field_replace_pc hpc v s.rf) _

/-! ### Reading back what was written -/

/-- A written register reads back as written under the normative mask. -/
theorem RegFile.read8_write8_normative (r : Reg8) (v : Byte) (rf : RegFile) :
    (rf.write8 Config.fWmask r v).read8 r = v := by
  rw [RegFile.read8_write8_same, maskF_normative, ite_self]

/-- Writing back what a register holds changes nothing under the normative mask. -/
theorem RegFile.write8_read8 (r : Reg8) (rf : RegFile) : rf.write8 Config.fWmask r (rf.read8 r) = rf := by
  cases r <;> simp [RegFile.write8, RegFile.read8]

/-- Writes of two registers commute. -/
theorem RegFile.write8_comm (m : Byte) {r r' : Reg8} (h : r ≠ r') (v w : Byte) (rf : RegFile) :
    (rf.write8 m r v).write8 m r' w = (rf.write8 m r' w).write8 m r v := by
  cases r <;> cases r' <;> first | rfl | exact absurd rfl h

section
variable {q : Reg16} {hi lo : Reg8} (h : halves q = some (hi, lo))
include h

/-- The halves written one by one, the high one read. -/
theorem RegFile.read8_hi_write_halves (m a b : Byte) (rf : RegFile) :
    ((rf.write8 m hi a).write8 m lo b).read8 hi = a := by
  rw [RegFile.read8_write8_other m (halves_ne h), RegFile.read8_write8_same, if_neg (halves_hi_ne_f h)]

/-- The halves written one by one are read as the pair of them. -/
theorem RegFile.read16_write_halves (m a b : Byte) (rf : RegFile) :
    ((rf.write8 m hi a).write8 m lo b).read16 q = pair a (if lo = .f then b &&& m else b) := by
  rw [RegFile.read16_of_halves h, RegFile.read8_hi_write_halves h, RegFile.read8_write8_same]
  rfl

/-- The same under the normative mask. -/
theorem RegFile.read16_write_halves_normative (a b : Byte) (rf : RegFile) :
    ((rf.write8 Config.fWmask hi a).write8 Config.fWmask lo b).read16 q = pair a b := by
  rw [RegFile.read16_of_halves h, RegFile.read8_hi_write_halves h, RegFile.read8_write8_normative]

end

/-- A 16-bit write reads back as written under the normative mask. -/
theorem RegFile.read16_write16_normative (q : Reg16) (v : Word) (rf : RegFile) :
    (rf.write16 Config.fWmask q v).read16 q = v := by
  obtain rfl | rfl | ⟨hi, lo, h⟩ := halves_cases q
  · rfl
  · rfl
  · rw [RegFile.write16_of_halves h, RegFile.read16_write_halves_normative h, pair_hiByte_loByte]

/-- Writing back what SP, PC or a pair holds changes nothing under the normative mask (R22). -/
theorem RegFile.write16_read16 (q : Reg16) (rf : RegFile) : rf.write16 Config.fWmask q (rf.read16 q) = rf := by
  obtain rfl | rfl | ⟨hi, lo, h⟩ := halves_cases q
  · rfl
  · rfl
  · rw [RegFile.write16_of_halves h, RegFile.read16_of_halves h, hiByte_pair, loByte_pair, RegFile.write8_read8,
      RegFile.write8_read8]

/-- Settles O31: a pair access is the accesses of its two halves, which are different registers. -/
theorem pairsAreViewsOfTheirHalves : Obligations.PairsAreViewsOfTheirHalves := by
  unfold Obligations.PairsAreViewsOfTheirHalves
  refine ⟨fun m q hi lo a b rf h => ?_, fun m q hi lo v rf h => ?_, RegFile.write16_read16⟩
  · exact ⟨RegFile.read16_write_halves h m a b rf, RegFile.write8_comm m (halves_ne h) a b rf⟩
  · rw [RegFile.write16_of_halves h]
    exact ⟨RegFile.read8_hi_write_halves h m _ _ rf, RegFile.read8_write8_same m lo _ _⟩

/-! ### Runs of events (R29) -/

/-- What a run leaves in a part of the register file that every event either overwrites or keeps: the latest value
stored there. -/
theorem runEvents_latest {α : Type} {m : Byte} {view : RegFile → α} {stores : Event → Option α}
    (hview : ∀ e rf, view (applyEvent m e rf).1 = (stores e).getD (view rf)) (es : List Event) (rf : RegFile) :
    view (runEvents m es rf) = (latest stores es).getD (view rf) := by
  induction es generalizing rf with
  | nil => rfl
  | cons e es ih => rw [runEvents_cons, ih, hview, latest_cons]

/-- A run of which no event stores anything there leaves it. -/
theorem runEvents_of_none {α : Type} {m : Byte} {view : RegFile → α} {stores : Event → Option α}
    (hview : ∀ e rf, view (applyEvent m e rf).1 = (stores e).getD (view rf)) {es : List Event}
    (hes : ∀ e ∈ es, stores e = none) (rf : RegFile) : view (runEvents m es rf) = view rf := by
  rw [runEvents_latest hview, latest_of_none stores es hes, Option.getD_none]

/-- The decoder inverts the encoder on the generic forms (30_encoding R55). -/
@[simp] theorem decodeOp_encodeOp (op : Op) : decodeOp (encodeOp op) = some op := by
  cases op <;> simp [decodeOp, encodeOp]

/-- The word of an operation performs it. -/
theorem execWord_encodeOp (m : Byte) (op : Op) (rf : RegFile) :
    execWord m (encodeOp op) rf = ((perform m op rf).1, ⟨false, (perform m op rf).2⟩) :=
  execWord_of_decodeOp (decodeOp_encodeOp op) m rf

/-- The response to a read after the word of a write and a run: the value of the register after that run. -/
theorem execWord_read_after_write (m : Byte) (get set : Op) (es : List Event) (rf : RegFile) :
    (execWord m (encodeOp get) (runEvents m (.word (encodeOp set) :: es) rf)).2 =
      ⟨false, (perform m get (runEvents m es (perform m set rf).1)).2⟩ := by
  rw [execWord_encodeOp, runEvents_cons, applyEvent, execWord_encodeOp]

/-- Settles O32: the register holds the value right after the write, and events that store nothing in it leave it. -/
theorem setValueIsReturnedUntilTheNextWrite : Obligations.SetValueIsReturnedUntilTheNextWrite := by
  unfold Obligations.SetValueIsReturnedUntilTheNextWrite
  have keeps8 (m : Byte) (r : Reg8) {es : List Event} (hes : ∀ e ∈ es, e.stores8 m r = none) (rf : RegFile) :
      (runEvents m es rf).read8 r = rf.read8 r :=
    runEvents_of_none (view := (·.read8 r)) (fun e rf => applyEvent_read8 m e r rf) hes rf
  refine ⟨fun m r v rf es hes => ?_, fun m q hi lo v rf es h hes => ?_, fun m v rf es hes => ?_,
    fun m v rf es hes => ?_, fun v => ?_⟩
  · rw [execWord_read_after_write]
    simp only [perform, keeps8 m r hes, RegFile.read8_write8_same, maskF]
  · rw [execWord_read_after_write]
    simp only [perform, RegFile.read16_of_halves h, keeps8 m hi fun e he => (hes e he).1,
      keeps8 m lo fun e he => (hes e he).2]
    rw [← RegFile.read16_of_halves h, RegFile.write16_of_halves h, RegFile.read16_write_halves h]
  · rw [execWord_read_after_write]
    exact congrArg _ (runEvents_of_none (view := (·.sp)) (applyEvent_sp m) hes _)
  · rw [execWord_read_after_write]
    exact congrArg _ (runEvents_of_none (view := (·.pc)) (applyEvent_pc m) hes _)
  · rw [show loByte v &&& 0xFF = loByte v from maskF_normative _, pair_hiByte_loByte]

/-! ### Faithful runs under the two masks (93_implementation_defined U3) -/

/-- The masks 0xFF and 0xF0 agree on values with a zero low nibble. -/
theorem maskF_ff_eq_f0 {v : Byte} (h : lowNibble v = 0) : maskF 0xFF v = maskF 0xF0 v := by
  revert v; decide

/-- A faithful operation does the same under both masks. -/
theorem perform_ff_eq_f0 {op : Op} (h : op.faithful = true) (rf : RegFile) :
    perform 0xFF op rf = perform 0xF0 op rf := by
  cases op with
  | reset => rfl
  | get8 r => rfl
  | get16 q => rfl
  | set8 r v =>
    cases r with
    | f => simp only [perform, RegFile.write8, maskF_ff_eq_f0 (eq_of_beq h)]
    | _ => rfl
  | set16 q v =>
    cases q with
    | af => simp only [perform, RegFile.write16, RegFile.writePair, RegFile.write8, maskF_ff_eq_f0 (eq_of_beq h)]
    | _ => rfl

/-- A faithful event does the same under both masks. -/
theorem applyEvent_ff_eq_f0 {e : Event} (h : e.faithful = true) (rf : RegFile) :
    applyEvent 0xFF e rf = applyEvent 0xF0 e rf := by
  cases e with
  | reset => rfl
  | word w =>
    cases hd : decodeOp w with
    | none => rw [applyEvent, applyEvent, execWord_of_decodeOp_none hd, execWord_of_decodeOp_none hd]
    | some op =>
      rw [applyEvent, applyEvent, execWord_of_decodeOp hd, execWord_of_decodeOp hd,
        perform_ff_eq_f0 (faithful_of_decodeOp h hd)]

/-- Settles O37: event by event, the two masks give the same state and the same response. -/
theorem faithfulRunsDoNotDependOnTheMask : Obligations.FaithfulRunsDoNotDependOnTheMask := by
  unfold Obligations.FaithfulRunsDoNotDependOnTheMask
  intro es
  induction es with
  | nil => exact fun rf _ => ⟨rfl, rfl⟩
  | cons e es ih =>
    intro rf hes
    have hevent := applyEvent_ff_eq_f0 (hes e List.mem_cons_self) rf
    obtain ⟨hstate, hresponses⟩ := ih (applyEvent 0xF0 e rf).1 fun e' he' => hes e' (List.mem_cons_of_mem e he')
    simp only [runEvents, runResponses, hevent]
    exact ⟨hstate, by rw [hresponses]⟩

/-! ### What a cycle depends on (R32, R36) -/

/-- What a cycle leaves depends on the register file and the schedule, not on the response lines. -/
theorem State.afterCycle_congr {s s' : State} (hrf : s.rf = s'.rf) (hin : s.inputs = s'.inputs) (e : Option Event) :
    s.afterCycle e = s'.afterCycle e := by
  have hinputs : (s.afterCycle e).inputs = (s'.afterCycle e).inputs := by simpa using hin
  cases e with
  | none => exact State.ext_fields hrf rfl hinputs
  | some e =>
    exact State.ext_fields (by rw [State.afterCycle_event_rf, State.afterCycle_event_rf, hrf])
      (by rw [State.afterCycle_event_rsp, State.afterCycle_event_rsp, hrf]) hinputs

/-- Settles O15: neither the fetch nor the cycle looks at the response lines. -/
theorem responseLinesAreNeverRead : Obligations.ResponseLinesAreNeverRead := by
  unfold Obligations.ResponseLinesAreNeverRead
  intro s r
  rw [step_eq, step_eq, State.fetch_pins, State.fetch_pins]
  exact congrArg _ (State.afterCycle_congr (by simp) (by simp) _)

/-- A cycle of the register file numbered `k` replaces it by what the cycle makes of it. -/
theorem stepInstance_of_getElem? {k : Nat} {sys : List State} {s : State} (h : sys[k]? = some s) :
    stepInstance k sys = sys.set k (s.fetch.2.afterCycle s.fetch.1.event) := by
  simp only [stepInstance, h, step_eq]

/-- A number that names no register file changes nothing. -/
theorem stepInstance_of_none {k : Nat} {sys : List State} (h : sys[k]? = none) : stepInstance k sys = sys := by
  simp only [stepInstance, h]

/-- Settles O44: a cycle of register file `k` replaces the `k`-th state and no other. -/
theorem instancesShareNothing : Obligations.InstancesShareNothing := by
  unfold Obligations.InstancesShareNothing
  refine ⟨fun k j sys hne => ?_, fun k sys s h => ⟨_, step_eq s, ?_⟩⟩
  · cases h : sys[k]? with
    | none => rw [stepInstance_of_none h]
    | some s => rw [stepInstance_of_getElem? h, List.getElem?_set_ne hne.symm]
  · obtain ⟨hk, -⟩ := List.getElem?_eq_some_iff.mp h
    rw [stepInstance_of_getElem? h, List.getElem?_set_self hk]

/-! ### The 16-bit reads (42_get16 R79 to R84) -/

/-- A word that decodes to nothing is answered with the error and changes nothing else (60 R103). -/
theorem step_present_of_illegal {w : CommandWord} (h : decodeOp w = none) (s : State) :
    step (s.present w) = .next { s with rsp := ⟨true, 0⟩ } := by
  rw [step_present, State.afterCycle_word_eq_execWord, execWord_of_decodeOp_none h]

/-- The word of a 16-bit read decodes to it, and a word of its group and id with data bits is ILLEGAL. -/
theorem get16_words (q : Reg16) :
    decode (encodeOp (.get16 q)) = .op (Op.get16 q).toInstr ∧
    ∀ (w : CommandWord) (s : State), opField w = opField (encodeOp (.get16 q)) →
      selField w = selField (encodeOp (.get16 q)) → dataField w ≠ 0 →
      decode w = .illegal .badGet16 ∧ step (s.present w) = .next { s with rsp := ⟨true, 0⟩ } := by
  refine ⟨decode_of_decodeOp (decodeOp_encodeOp _), fun w s hop _ hdata => ?_⟩
  rw [encodeOp, opField_commandWord] at hop
  have hnone : decodeOp w = none := by
    rw [decodeOp, hop]
    exact if_neg hdata
  have hclass : illegalClass w = .badGet16 := by simp [illegalClass, hop]
  exact ⟨by rw [decode_of_decodeOp_none hnone, hclass], step_present_of_illegal hnone s⟩

/-- exec of a 16-bit read, the value being known. -/
theorem exec_get16 {q : Reg16} {s : State} {d : Word} (h : s.rf.read16 q = d) :
    exec (Op.get16 q).toInstr s = .next { s with rsp := ⟨false, d⟩ } := by
  rw [exec_toInstr, ← h]
  rfl

/-- A read of SP or PC, or of a pair as one value. -/
theorem readRule16 (q : Reg16) :
    Claims.ReadRule16 (Op.get16 q).toInstr (encodeOp (.get16 q)) (·.read16 q) :=
  ⟨fun _ => exec_get16 rfl, get16_words q⟩

/-- A read of a pair. -/
theorem readRulePair {q : Reg16} {hi lo : Reg8} (h : halves q = some (hi, lo)) :
    Claims.ReadRulePair (Op.get16 q).toInstr (encodeOp (.get16 q)) (·.read8 hi) (·.read8 lo)
      (fun a => (Op.set8 hi a).toInstr) (fun b => (Op.set8 lo b).toInstr) := by
  obtain ⟨hword, hillegal⟩ := get16_words q
  refine ⟨fun s => ⟨pair (s.rf.read8 hi) (s.rf.read8 lo), pair_toNat _ _, hiByte_pair _ _, loByte_pair _ _,
    exec_get16 (RegFile.read16_of_halves h s.rf)⟩, hword, hillegal, fun a b s t u ht hu => ?_,
    fun a b s t u ht hu => ?_⟩
  · rw [exec_toInstr] at ht hu
    cases ht
    cases hu
    exact exec_get16 (RegFile.read16_write_halves_normative h a b s.rf)
  · rw [exec_toInstr] at ht hu
    cases ht
    cases hu
    refine exec_get16 ?_
    rw [← RegFile.read16_write_halves_normative h a b s.rf, RegFile.write8_comm _ (halves_ne h)]
    rfl

/-- The low bits of a 16-bit value are those of its low byte. -/
theorem getLsbD_loByte {i : Nat} (h : i < 8) (d : Word) : (loByte d).getLsbD i = d.getLsbD i := by
  simp [loByte, h]

/-- The low nibble of the low byte. -/
theorem lowNibble_loByte (d : Word) : lowNibble (loByte d) = d.extractLsb' 0 4 :=
  BitVec.extractLsb'_extractLsb'_of_le (by decide)

/-- Settles O23: `readRule16` and `readRulePair` at the six names; the low byte that `getAF` responds is F. -/
theorem get16Operations : Obligations.Get16Operations := by
  unfold Obligations.Get16Operations
  refine ⟨readRule16 .sp, readRule16 .pc, readRulePair (q := .af) rfl, readRulePair (q := .bc) rfl,
    readRulePair (q := .de) rfl, readRulePair (q := .hl) rfl, fun s t h => ?_⟩
  have hlow : loByte t.rsp.data = s.rf.f := by
    rw [(exec_next h).2]
    exact loByte_pair _ _
  rw [RegFile.Canonical, RegFile.flagZ, RegFile.flagN, RegFile.flagH, RegFile.flagC, ← hlow, lowNibble_loByte]
  exact ⟨(getLsbD_loByte (by decide) _).symm, (getLsbD_loByte (by decide) _).symm,
    (getLsbD_loByte (by decide) _).symm, (getLsbD_loByte (by decide) _).symm, id⟩

/-! ### The 16-bit writes (44_set16 R95 to R100) -/

/-- Data bits put into a command word with none. -/
theorem commandWord_or_data (op sel : Nibble) (v : Word) :
    commandWord op sel 0 ||| v.setWidth 24 = commandWord op sel v := by
  apply BitVec.eq_of_toNat_eq
  have hv := v.isLt
  have hbase : (commandWord op sel 0).toNat = (op.toNat * 16 + sel.toNat) <<< 16 := by
    have hzero : (0 : Word).toNat = 0 := rfl
    rw [commandWord_toNat, Nat.shiftLeft_eq, hzero]; omega
  have hdata : (v.setWidth 24).toNat = v.toNat := by
    rw [BitVec.toNat_setWidth, Nat.mod_eq_of_lt (by omega)]
  have hor := Nat.shiftLeft_add_eq_or_of_lt hv (op.toNat * 16 + sel.toNat)
  rw [Nat.shiftLeft_eq] at hor
  simp only [BitVec.toNat_or, hbase, hdata, commandWord_toNat, Nat.shiftLeft_eq]
  omega

/-- Every word of the group and id of a 16-bit write decodes to it. -/
theorem decode_set16_word {w : CommandWord} {q : Reg16} (hop : opField w = 5) (hsel : selField w = r16Id q) :
    decode w = .op (Op.set16 q (dataField w)).toInstr := by
  have hw : encodeOp (.set16 q (dataField w)) = w := by rw [encodeOp, ← hop, ← hsel, commandWord_fields]
  exact decode_of_decodeOp (by rw [← decodeOp_encodeOp (.set16 q (dataField w)), hw])

/-- exec of a write, the register file it leaves being known. -/
theorem exec_set16 {q : Reg16} {v : Word} {s : State} {rf : RegFile} (h : s.rf.write16 Config.fWmask q v = rf) :
    exec (Op.set16 q v).toInstr s = .next { s with rf := rf, rsp := ⟨false, 0⟩ } := by
  rw [exec_toInstr, ← h]
  rfl

/-- A write of SP, PC or a pair, `upd` being the write in terms of the fields. -/
theorem writeRule16 {q : Reg16} {upd : Word → RegFile → RegFile}
    (hupd : ∀ v rf, rf.write16 Config.fWmask q v = upd v rf) :
    Claims.WriteRule16 (fun v => (Op.set16 q v).toInstr) (encodeOp (.set16 q 0)) upd (Op.get16 q).toInstr := by
  refine ⟨fun v s => exec_set16 (hupd v s.rf), fun v => ?_, fun w hop hsel => ?_, fun v s t h => ?_⟩
  · rw [encodeOp, commandWord_or_data]
    exact decode_of_decodeOp (decodeOp_encodeOp (.set16 q v))
  · rw [encodeOp, opField_commandWord] at hop
    rw [encodeOp, selField_commandWord] at hsel
    exact decode_set16_word hop hsel
  · rw [exec_toInstr] at h
    cases h
    exact exec_get16 (RegFile.read16_write16_normative q v s.rf)

/-- A write of a pair. -/
theorem writeRulePair {q : Reg16} {hi lo : Reg8} (h : halves q = some (hi, lo)) {upd : Word → RegFile → RegFile}
    (hupd : ∀ v rf, rf.write16 Config.fWmask q v = upd v rf) :
    Claims.WriteRulePair (fun v => (Op.set16 q v).toInstr) (encodeOp (.set16 q 0)) upd (Op.get16 q).toInstr
      (fun a => (Op.set8 hi a).toInstr) (fun b => (Op.set8 lo b).toInstr)
      (fun rf => pair (rf.read8 hi) (rf.read8 lo)) := by
  refine ⟨writeRule16 hupd, fun v s => ⟨_, exec_toInstr _ _, ?_⟩, fun v s => ⟨_, exec_toInstr _ _, ?_⟩, fun s => ?_⟩
  · rw [exec_set16 (RegFile.write16_of_halves h _ v s.rf), exec_toInstr]
    rfl
  · rw [exec_set16 (RegFile.write16_of_halves h _ v s.rf), exec_toInstr, RegFile.write8_comm _ (halves_ne h)]
    rfl
  · have hback := RegFile.write16_read16 q s.rf
    rw [RegFile.read16_of_halves h] at hback
    exact exec_set16 hback

/-- Settles O25: `writeRule16` and `writeRulePair` at the six names; F after `setAF` is the low byte of the operand. -/
theorem set16Operations : Obligations.Set16Operations := by
  unfold Obligations.Set16Operations
  refine ⟨writeRule16 (RegFile.write16_normative .sp), writeRule16 (RegFile.write16_normative .pc),
    writeRulePair (q := .af) rfl (RegFile.write16_normative .af),
    writeRulePair (q := .bc) rfl (RegFile.write16_normative .bc),
    writeRulePair (q := .de) rfl (RegFile.write16_normative .de),
    writeRulePair (q := .hl) rfl (RegFile.write16_normative .hl), fun v s t h => ?_, fun v rf => ?_⟩
  · have hf : t.rf.f = loByte v := by
      rw [(exec_next h).1]
      exact maskF_normative _
    rw [RegFile.flagZ, RegFile.flagN, RegFile.flagH, RegFile.flagC, hf, lowNibble_loByte]
    exact ⟨getLsbD_loByte (by decide) v, getLsbD_loByte (by decide) v, getLsbD_loByte (by decide) v,
      getLsbD_loByte (by decide) v, rfl⟩
  · rw [encode, execWord_encodeOp]
    rfl

/-! ### The reset state (R33, R34) -/

/-- Settles O19: the ten values of R33's table. -/
theorem resetStateIsTheTable : Obligations.ResetStateIsTheTable := by
  unfold Obligations.ResetStateIsTheTable
  decide

/-- Settles O20: the pairs and flags computed from the ten values. -/
theorem resetStateViews : Obligations.ResetStateViews := by
  unfold Obligations.ResetStateViews
  decide

/-- Settles O39: F is canonical at reset, the response is no error, and nothing is to come. -/
theorem invariantsHoldAtReset : Obligations.InvariantsHoldAtReset := by
  unfold Obligations.InvariantsHoldAtReset
  have hnothing (P : Event → Prop) : ∀ e ∈ eventsOf State.reset.inputs, P e := List.forall_mem_nil P
  exact ⟨⟨canonical_reset, hnothing _⟩, rfl, hnothing _⟩

end Sys2Proof.Machine
end

section
/-! PROOFS. The family 20_memory. An operation done again finds its own values in place (R43); a run of cycles is the
fold of the transaction model over their events (R46), and the fold leaves in each register the latest value stored
there. -/

namespace Sys2Proof.Machine

/-! ### An operation done twice (20_memory R43) -/

/-- A second write to the same 16-bit register or pair replaces the first. -/
theorem RegFile.write16_write16 (m : Byte) (q : Reg16) (v w : Word) (rf : RegFile) :
    (rf.write16 m q v).write16 m q w = rf.write16 m q w := by cases q <;> rfl

/-- An operation performed on what it leaves does and responds the same again. -/
theorem perform_perform (m : Byte) (op : Op) (rf : RegFile) : perform m op (perform m op rf).1 = perform m op rf := by
  cases op with
  | reset => rfl
  | get8 r => rfl
  | set8 r v => exact congrArg (·, 0) (rf.write8_write8 m r v v)
  | get16 q => rfl
  | set16 q v => exact congrArg (·, 0) (rf.write16_write16 m q v v)

/-- Settles O33: exec is `perform` on the register file, and `perform` repeats itself. -/
theorem operationsAreIdempotent : Obligations.OperationsAreIdempotent := by
  unfold Obligations.OperationsAreIdempotent
  intro i s t h
  rw [exec_eq] at h
  cases h
  simp only [exec_eq, State.performed_eq_perform, perform_perform]

/-! ### Cycles and events (70_reset_and_hazards R126) -/

/-- One cycle more at the end of a run. -/
theorem runCycles_succ_last {k : Nat} {s u : State} (h : runCycles k s = .next u) : runCycles (k + 1) s = step u := by
  induction k generalizing s with
  | zero => cases h; rw [runCycles_succ, step_eq]; rfl
  | succ k ih => rw [runCycles_succ] at h ⊢; exact ih h

/-- What a cycle does to the register file, as a run of at most one event. -/
theorem State.afterCycle_rf (s : State) (e : Option Event) :
    (s.afterCycle e).rf = runEvents Config.fWmask e.toList s.rf := by
  cases e with
  | none => rfl
  | some e => exact s.afterCycle_event_rf e

/-- The events of one cycle more; past the end of the schedule the port is idle. -/
theorem eventsOf_take_succ (ps : List PortIn) (k : Nat) :
    eventsOf (ps.take (k + 1)) = eventsOf (ps.take k) ++ ((ps.drop k).headD PortIn.idle).event.toList := by
  rw [List.take_add_one, eventsOf_append, List.headD_eq_head?_getD, List.head?_drop]
  cases ps[k]? with
  | none => rfl
  | some p => cases hp : p.event <;> simp [eventsOf, hp]

/-- Any number of cycles can be run; they take their pins off the list and fold the transaction model over their
events. -/
theorem runCycles_fold (k : Nat) (s : State) :
    ∃ t, runCycles k s = .next t ∧ t.inputs = s.inputs.drop k ∧
      t.rf = runEvents Config.fWmask (eventsOf (s.inputs.take k)) s.rf := by
  induction k with
  | zero => exact ⟨s, rfl, rfl, rfl⟩
  | succ k ih =>
    obtain ⟨u, hrun, hinputs, hrf⟩ := ih
    refine ⟨_, (runCycles_succ_last hrun).trans (step_eq u), ?_, ?_⟩
    · rw [State.afterCycle_inputs, State.fetch_inputs, hinputs, List.tail_drop]
    · rw [State.afterCycle_rf, State.fetch_rf, State.fetch_pins, hinputs, hrf, eventsOf_take_succ, runEvents_append]

/-- Settles O40: the fold over the cycles before gives the state in which the last cycle is performed, and that cycle
responds what its event responds there. -/
theorem portRunIsTheFoldOfTheEvents : Obligations.PortRunIsTheFoldOfTheEvents := by
  unfold Obligations.PortRunIsTheFoldOfTheEvents
  intro s k p hp
  obtain ⟨u, hrun, hinputs, hrf⟩ := runCycles_fold k s
  obtain ⟨t, hrun', hinputs', hrf'⟩ := runCycles_fold (k + 1) s
  have hpins : (s.inputs.drop k).headD PortIn.idle = p := by
    rw [List.headD_eq_head?_getD, List.head?_drop, hp, Option.getD_some]
  obtain rfl : u.fetch.2.afterCycle p.event = t := by
    rw [runCycles_succ_last hrun, step_eq, State.fetch_pins, hinputs, hpins] at hrun'
    exact Host.Outcome.next.inj hrun'
  refine ⟨_, hrun', hinputs', hrf', fun hidle => by rw [hidle]; rfl, fun e he => ?_⟩
  have hrsp : (u.fetch.2.afterCycle p.event).rsp =
      (applyEvent Config.fWmask e (runEvents Config.fWmask (eventsOf (s.inputs.take k)) s.rf)).2 := by
    rw [he, State.afterCycle_event_rsp, State.fetch_rf, hrf]
  refine ⟨hrsp, ?_⟩
  rw [hrsp, eventsOf_take_succ, hpins, he, runResponses_append]
  exact List.getLast?_concat

/-! ### The latest write (20_memory R46) -/

/-- After a run each register holds the latest value stored in it, else its old value. -/
theorem runEvents_registers (m : Byte) (es : List Event) (rf : RegFile) :
    (∀ r, (runEvents m es rf).read8 r = (latest (Event.stores8 m r) es).getD (rf.read8 r)) ∧
    (runEvents m es rf).sp = (latest Event.storesSP es).getD rf.sp ∧
    (runEvents m es rf).pc = (latest Event.storesPC es).getD rf.pc :=
  ⟨fun r => runEvents_latest (view := (·.read8 r)) (fun e rf => applyEvent_read8 m e r rf) es rf,
    runEvents_latest (view := (·.sp)) (applyEvent_sp m) es rf,
    runEvents_latest (view := (·.pc)) (applyEvent_pc m) es rf⟩

/-- Settles O41: an event overwrites a register with what it stores there or keeps it, and the cycles of the whole
schedule are the fold over its events. -/
theorem readReturnsTheLatestWrite : Obligations.ReadReturnsTheLatestWrite := by
  unfold Obligations.ReadReturnsTheLatestWrite
  refine ⟨runEvents_registers, fun s => ?_⟩
  obtain ⟨t, hrun, -, hrf⟩ := runCycles_fold s.inputs.length s
  rw [List.take_length] at hrf
  exact ⟨t, hrun, hrf ▸ runEvents_registers Config.fWmask (eventsOf s.inputs) s.rf⟩

end Sys2Proof.Machine
end

section
/-! PROOFS. The family 30_encoding. A command word is its three fields and the decoder is the inverse of the encoder on
the words it accepts (R50, R55); which words it rejects, how many, what a word does at the port and what a written call
spells are read off from that. -/

namespace Sys2Proof.Machine

/-! ### The decoder and the encoder (R50, R55) -/

/-- Settles O1: the decoder inverts the encoder on the generic forms, and an operation is named by its generic form. -/
theorem decodeOfEncodeIsTheOperation : Obligations.DecodeOfEncodeIsTheOperation := by
  unfold Obligations.DecodeOfEncodeIsTheOperation
  intro i
  exact (decode_eq_op_iff (encode i) i).mpr (decodeOp_encodeOp i.toOp)

/-- A word is put together from three fields exactly when they are its own. -/
theorem commandWord_eq_iff {op sel : Nibble} {data : Word} {w : CommandWord} :
    commandWord op sel data = w ↔ opField w = op ∧ selField w = sel ∧ dataField w = data := by
  constructor
  · rintro rfl; simp
  · rintro ⟨rfl, rfl, rfl⟩; exact commandWord_fields w

/-- An r8 id names the register whose id it is. -/
theorem r8Of_eq_some_iff {sel : Nibble} {r : Reg8} : r8Of sel = some r ↔ sel = r8Id r :=
  ⟨fun h => (r8Id_of_r8Of h).symm, fun h => h ▸ r8Of_r8Id r⟩

/-- An r16 id names the register or pair whose id it is. -/
theorem r16Of_eq_some_iff {sel : Nibble} {q : Reg16} : r16Of sel = some q ↔ sel = r16Id q :=
  ⟨fun h => (r16Id_of_r16Of h).symm, fun h => h ▸ r16Of_r16Id q⟩

/-- The r8 ids that name no register (R52). -/
theorem r8Of_eq_none_iff : ∀ sel : Nibble, r8Of sel = none ↔ 8 ≤ sel.toNat := by decide

/-- The r16 ids that name neither register nor pair (R53). -/
theorem r16Of_eq_none_iff : ∀ sel : Nibble, r16Of sel = none ↔ 6 ≤ sel.toNat := by decide

/-- A 16-bit value is a byte zero-extended exactly when its high byte is zero and its low byte is that byte. -/
theorem eq_zext16_iff {d : Word} {v : Byte} : d = zext16 v ↔ hiByte d = 0 ∧ loByte d = v := by
  constructor
  · rintro rfl; exact ⟨hiByte_zext16 v, loByte_zext16 v⟩
  · rintro ⟨hhi, rfl⟩; exact (zext16_loByte hhi).symm

/-- A word that the decoder accepts is the encoding of its operation. -/
theorem encodeOp_of_decodeOp {w : CommandWord} {op : Op} (h : decodeOp w = some op) : encodeOp op = w := by
  unfold decodeOp at h
  split at h <;> rename_i hop
  · obtain ⟨⟨hsel, hdata⟩, rfl⟩ : (selField w = 0 ∧ dataField w = 0) ∧ .reset = op := by simpa using h
    exact commandWord_eq_iff.mpr ⟨BitVec.eq_of_toNat_eq hop, hsel, hdata⟩
  · obtain ⟨hdata, r, hr, rfl⟩ : dataField w = 0 ∧ ∃ r, r8Of (selField w) = some r ∧ .get8 r = op := by simpa using h
    exact commandWord_eq_iff.mpr ⟨BitVec.eq_of_toNat_eq hop, r8Of_eq_some_iff.mp hr, hdata⟩
  · obtain ⟨hhi, r, hr, rfl⟩ : hiByte (dataField w) = 0 ∧
        ∃ r, r8Of (selField w) = some r ∧ .set8 r (loByte (dataField w)) = op := by simpa using h
    exact commandWord_eq_iff.mpr ⟨BitVec.eq_of_toNat_eq hop, r8Of_eq_some_iff.mp hr, eq_zext16_iff.mpr ⟨hhi, rfl⟩⟩
  · obtain ⟨hdata, q, hq, rfl⟩ : dataField w = 0 ∧ ∃ q, r16Of (selField w) = some q ∧ .get16 q = op := by
      simpa using h
    exact commandWord_eq_iff.mpr ⟨BitVec.eq_of_toNat_eq hop, r16Of_eq_some_iff.mp hq, hdata⟩
  · obtain ⟨q, hq, rfl⟩ : ∃ q, r16Of (selField w) = some q ∧ .set16 q (dataField w) = op := by simpa using h
    exact commandWord_eq_iff.mpr ⟨BitVec.eq_of_toNat_eq hop, r16Of_eq_some_iff.mp hq, rfl⟩
  · cases h

/-- The decoder accepts exactly the encodings. -/
theorem decodeOp_eq_some_iff {w : CommandWord} {op : Op} : decodeOp w = some op ↔ encodeOp op = w :=
  ⟨encodeOp_of_decodeOp, fun h => h ▸ decodeOp_encodeOp op⟩

/-- Settles O2: a word decodes to an operation exactly when it is the operation's encoding, so its fields are those the
encoder puts there. -/
theorem decoderAcceptsExactlyItsFiveArms : Obligations.DecoderAcceptsExactlyItsFiveArms := by
  unfold Obligations.DecoderAcceptsExactlyItsFiveArms
  have hfield (w : CommandWord) (op : Nibble) : (opField w).toNat = op.toNat ↔ opField w = op := BitVec.toNat_inj
  refine ⟨fun w => ?_, fun w r => ?_, fun w r v => ?_, fun w q => ?_, fun w q v => ?_, by decide, by decide,
    fun w w' op h h' => ?_, fun _ _ => decodeOp_eq_some_iff⟩
  · rw [decodeOp_eq_some_iff, encodeOp, commandWord_eq_iff, ← hfield]; rfl
  · rw [decodeOp_eq_some_iff, encodeOp, commandWord_eq_iff, ← hfield, r8Of_eq_some_iff]; rfl
  · rw [decodeOp_eq_some_iff, encodeOp, commandWord_eq_iff, ← hfield, r8Of_eq_some_iff, eq_zext16_iff]; rfl
  · rw [decodeOp_eq_some_iff, encodeOp, commandWord_eq_iff, ← hfield, r16Of_eq_some_iff]; rfl
  · rw [decodeOp_eq_some_iff, encodeOp, commandWord_eq_iff, ← hfield, r16Of_eq_some_iff]; rfl
  · exact (encodeOp_of_decodeOp h).symm.trans (encodeOp_of_decodeOp h')

/-! ### ILLEGAL words (R58) -/

/-- A class that holds of a word is the one its `OP` picks. -/
theorem illegalClass_of_holds {w : CommandWord} {c : IllegalClass} (h : c.Holds w) : illegalClass w = c := by
  cases c with
  | reservedOp =>
    have hop : (opField w).toNat = 0 ∨ 6 ≤ (opField w).toNat := h
    unfold illegalClass
    split
    case h_6 => rfl
    all_goals omega
  | resetWithOperand => simp [illegalClass, h.1]
  | badGet8 => simp [illegalClass, h.1]
  | badSet8 => simp [illegalClass, h.1]
  | badGet16 => simp [illegalClass, h.1]
  | badSet16 => simp [illegalClass, h.1]

/-- The decoder rejects a word exactly when the class that its `OP` picks holds of it. -/
theorem decodeOp_eq_none_iff (w : CommandWord) : decodeOp w = none ↔ (illegalClass w).Holds w := by
  unfold decodeOp illegalClass
  split <;> rename_i hop
  · simp [IllegalClass.Holds, hop, imp_iff_not_or]
  · simp [IllegalClass.Holds, hop, r8Of_eq_none_iff, imp_iff_or_not]
  · simp [IllegalClass.Holds, hop, r8Of_eq_none_iff, imp_iff_or_not]
  · simp [IllegalClass.Holds, hop, r16Of_eq_none_iff, imp_iff_or_not]
  · simp [IllegalClass.Holds, hop, r16Of_eq_none_iff]
  · simp only [IllegalClass.Holds, true_iff, imp_false] at *; omega

/-- The decoder answers ILLEGAL exactly for the words it rejects, with the class that `OP` picks. -/
theorem decode_eq_illegal_iff (w : CommandWord) (c : IllegalClass) :
    decode w = .illegal c ↔ decodeOp w = none ∧ illegalClass w = c := by
  cases h : decodeOp w with
  | none => simp [decode_of_decodeOp_none h]
  | some op => simp [decode_of_decodeOp h]

/-- Settles O3: of the six conditions only the one that the word's `OP` picks can hold, and the decoder rejects the
word exactly when it does. -/
theorem illegalWordsAreTheSixClasses : Obligations.IllegalWordsAreTheSixClasses := by
  unfold Obligations.IllegalWordsAreTheSixClasses
  refine ⟨fun w => ?_, fun w c => ?_, fun w c c' h h' => ?_⟩
  · rw [decodeOp_eq_none_iff]
    exact ⟨fun h => ⟨_, h⟩, fun ⟨_, h⟩ => illegalClass_of_holds h ▸ h⟩
  · rw [decode_eq_illegal_iff, decodeOp_eq_none_iff]
    exact ⟨fun ⟨h, hc⟩ => hc ▸ h, fun h => ⟨illegalClass_of_holds h ▸ h, illegalClass_of_holds h⟩⟩
  · exact (illegalClass_of_holds h).symm.trans (illegalClass_of_holds h')

/-- Settles O7: the eleven words, decoded. -/
theorem wordsOfTheMapDecode : Obligations.WordsOfTheMapDecode := by
  unfold Obligations.WordsOfTheMapDecode
  decide

/-! ### How many words (R58)

The legal words are counted as the operations they decode to, the words of a class as the words of its `OP` without
the legal ones. -/

/-- The bit vectors of a width. -/
theorem card_bitVec (n : Nat) : Nat.card (BitVec n) = 2 ^ n :=
  Nat.card_eq_of_equiv_fin BitVec.equivFin.toEquiv

/-- What a condition holds of and what it does not hold of make up a finite type. -/
theorem card_subtype_add_card_not {α : Type} [Finite α] (p : α → Prop) :
    Nat.card { a // p a } + Nat.card { a // ¬ p a } = Nat.card α := by
  classical
  rw [← Nat.card_sum, Nat.card_congr (Equiv.sumCompl p)]

/-- The registers, by their ids (R52). -/
def reg8EquivFin : Reg8 ≃ Fin 8 where
  toFun r := ⟨(r8Id r).toNat, by cases r <;> decide⟩
  invFun := ![.a, .b, .c, .d, .e, .f, .h, .l]
  left_inv r := by cases r <;> rfl
  right_inv := by decide

/-- The 16-bit registers and pairs, by their ids (R53). -/
def reg16EquivFin : Reg16 ≃ Fin 6 where
  toFun q := ⟨(r16Id q).toNat, by cases q <;> decide⟩
  invFun := ![.sp, .pc, .af, .bc, .de, .hl]
  left_inv q := by cases q <;> rfl
  right_inv := by decide

/-- The generic forms, group by group. -/
def opEquivGroups : Op ≃ Unit ⊕ Reg8 ⊕ (Reg8 × Byte) ⊕ Reg16 ⊕ (Reg16 × Word) where
  toFun
    | .reset => .inl ()
    | .get8 r => .inr (.inl r)
    | .set8 r v => .inr (.inr (.inl (r, v)))
    | .get16 q => .inr (.inr (.inr (.inl q)))
    | .set16 q v => .inr (.inr (.inr (.inr (q, v))))
  invFun
    | .inl _ => .reset
    | .inr (.inl r) => .get8 r
    | .inr (.inr (.inl (r, v))) => .set8 r v
    | .inr (.inr (.inr (.inl q))) => .get16 q
    | .inr (.inr (.inr (.inr (q, v)))) => .set16 q v
  left_inv op := by cases op <;> rfl
  right_inv g := by rcases g with _ | _ | _ | _ | _ <;> rfl

/-- R58's sum 1 + 8 + 2,048 + 6 + 393,216. -/
theorem card_op : Nat.card Op = 395279 := by
  have : Finite Reg8 := .of_equiv _ reg8EquivFin.symm
  have : Finite Reg16 := .of_equiv _ reg16EquivFin.symm
  have hreg8 : Nat.card Reg8 = 8 := Nat.card_eq_of_equiv_fin reg8EquivFin
  have hreg16 : Nat.card Reg16 = 6 := Nat.card_eq_of_equiv_fin reg16EquivFin
  rw [Nat.card_congr opEquivGroups]
  simp only [Nat.card_sum, Nat.card_prod, Nat.card_unique, card_bitVec, hreg8, hreg16]
  norm_num

/-- The legal words, by the operation that each is the encoding of. -/
def legalWordEquivOp : { w : CommandWord // decodeOp w ≠ none } ≃ Op where
  toFun w := (decodeOp w.1).get (Option.isSome_iff_ne_none.mpr w.2)
  invFun op := ⟨encodeOp op, by simp⟩
  left_inv w := Subtype.ext (encodeOp_of_decodeOp (Option.some_get _).symm)
  right_inv op := by simp

/-- Settles O4: there are as many legal words as operations, and the others of the 2^24 are ILLEGAL. -/
theorem countOfLegalWords : Obligations.CountOfLegalWords := by
  unfold Obligations.CountOfLegalWords
  have hlegal : Nat.card { w : CommandWord // decodeOp w ≠ none } = 395279 := by
    rw [Nat.card_congr legalWordEquivOp, card_op]
  have hall : Nat.card { w : CommandWord // decodeOp w = none } + 395279 = 2 ^ 24 := by
    rw [← hlegal, ← card_bitVec]
    exact card_subtype_add_card_not fun w => decodeOp w = none
  exact ⟨hlegal, Nat.add_right_cancel (hall.trans (by norm_num))⟩

/-- The three fields of a word determine it and can be any. -/
def wordFields : CommandWord ≃ Nibble × Nibble × Word where
  toFun w := (opField w, selField w, dataField w)
  invFun f := commandWord f.1 f.2.1 f.2.2
  left_inv := commandWord_fields
  right_inv f := by simp

/-- Words under a condition on `OP` and one on the other fields. -/
theorem card_words (P : Nibble → Prop) (Q : Nibble × Word → Prop) :
    Nat.card { w : CommandWord // P (opField w) ∧ Q (selField w, dataField w) } =
      Nat.card { op // P op } * Nat.card { f // Q f } := by
  rw [← Nat.card_prod]
  exact Nat.card_congr ((wordFields.subtypeEquiv fun _ => Iff.rfl).trans Equiv.subtypeProdEquivProd)

/-- The words of one `OP` whose select and data are not both as they should be. -/
theorem card_words_of_bad_operand {bad : CommandWord → Prop} {op : Nibble} {S : Nibble → Prop} {D : Word → Prop}
    (h : ∀ w, bad w ↔ opField w = op ∧ ¬ (S (selField w) ∧ D (dataField w))) :
    Nat.card { w // bad w } = 2 ^ 20 - Nat.card { sel // S sel } * Nat.card { d // D d } := by
  have hfit := card_subtype_add_card_not fun f : Nibble × Word => S f.1 ∧ D f.2
  rw [Nat.card_congr Equiv.subtypeProdEquivProd, Nat.card_prod, Nat.card_prod, card_bitVec, card_bitVec] at hfit
  rw [Nat.card_congr (Equiv.subtypeEquivRight h), card_words (· = op) fun f => ¬ (S f.1 ∧ D f.2), Nat.card_unique]
  omega

/-- The values that fit in a byte. -/
theorem card_hiByte_zero : Nat.card { d : Word // hiByte d = 0 } = 256 := by
  rw [show 256 = Nat.card Byte from (card_bitVec 8).symm]
  exact Nat.card_congr ⟨fun d => loByte d.1, fun v => ⟨zext16 v, hiByte_zext16 v⟩,
    fun d => Subtype.ext (zext16_loByte d.2), loByte_zext16⟩

/-- Settles O5: I1 holds of the words of eleven values of `OP`, and each other class of the words of its `OP` that are
not the 1, 8, 8 * 256, 6 or 6 * 65536 legal ones. -/
theorem countOfEachIllegalClass : Obligations.CountOfEachIllegalClass := by
  unfold Obligations.CountOfEachIllegalClass
  have hreserved : Nat.card { op : Nibble // op.toNat = 0 ∨ 6 ≤ op.toNat } = 11 := by
    rw [Nat.card_eq_fintype_card]; decide
  have hids8 : Nat.card { sel : Nibble // sel.toNat < 8 } = 8 := by rw [Nat.card_eq_fintype_card]; decide
  have hids16 : Nat.card { sel : Nibble // sel.toNat < 6 } = 6 := by rw [Nat.card_eq_fintype_card]; decide
  have hop (w : CommandWord) (op : Nibble) : opField w = op ↔ (opField w).toNat = op.toNat := BitVec.toNat_inj.symm
  refine ⟨?_, ?_, ?_, ?_, ?_, ?_⟩
  · have h := card_words (fun op => op.toNat = 0 ∨ 6 ≤ op.toNat) fun _ => True
    rw [hreserved, Nat.card_subtype_true, Nat.card_prod, card_bitVec, card_bitVec] at h
    simp only [and_true] at h
    exact h.trans (by norm_num)
  · rw [card_words_of_bad_operand (op := 1) (S := (· = 0)) (D := (· = 0))
      fun w => by simp [hop, imp_iff_not_or]]
    simp
  · rw [card_words_of_bad_operand (op := 2) (S := (·.toNat < 8)) (D := (· = 0))
      fun w => by simp [hop, imp_iff_not_or], hids8]
    simp
  · rw [card_words_of_bad_operand (op := 3) (S := (·.toNat < 8)) (D := (hiByte · = 0))
      fun w => by simp [hop, imp_iff_not_or], hids8, card_hiByte_zero]
    norm_num
  · rw [card_words_of_bad_operand (op := 4) (S := (·.toNat < 6)) (D := (· = 0))
      fun w => by simp [hop, imp_iff_not_or], hids16]
    simp
  · rw [card_words_of_bad_operand (op := 5) (S := (·.toNat < 6)) (D := fun _ => True)
      fun w => by simp [hop], hids16, Nat.card_subtype_true, card_bitVec]
    norm_num

/-! ### The opcode table (R54, R57) -/

/-- The generic form with its operand, where it has one, set to zero. -/
def blankOp : Op → Op
  | .set8 r _ => .set8 r 0
  | .set16 q _ => .set16 q 0
  | op => op

/-- A named operation with its operand zero, through the generic forms. -/
theorem blank_eq_toInstr_blankOp (i : Instr) : i.blank = (blankOp i.toOp).toInstr := by cases i <;> rfl

/-- The bits of an operation's word that are not its operand (R54). -/
def operandMask : Op → CommandWord
  | .set8 _ _ => 0xFFFF00#24
  | .set16 _ _ => 0xFF0000#24
  | _ => 0xFFFFFF#24

/-- The row of an operation. -/
def tableRow (op : Op) : Row := ⟨(blankOp op).toInstr, encodeOp (blankOp op), operandMask op⟩

/-- Every row of the table is that of its operation. -/
theorem eq_tableRow_of_mem : ∀ row ∈ opcodeTable, row = tableRow row.op.toOp := by decide

/-- Every operation has its row in the table. -/
theorem tableRow_mem (op : Op) : tableRow op ∈ opcodeTable := by
  have hset8 (r : Reg8) : tableRow (.set8 r 0) ∈ opcodeTable := by cases r <;> decide
  have hset16 (q : Reg16) : tableRow (.set16 q 0) ∈ opcodeTable := by cases q <;> decide
  cases op with
  | reset => decide
  | get8 r => cases r <;> decide
  | set8 r v => exact hset8 r
  | get16 q => cases q <;> decide
  | set16 q v => exact hset16 q

/-- Operations that differ in the operand only have the same row. -/
theorem tableRow_congr {op op' : Op} (h : blankOp op = blankOp op') : tableRow op = tableRow op' := by
  have hblank (o : Op) : tableRow (blankOp o) = tableRow o := by cases o <;> rfl
  rw [← hblank op, h, hblank]

/-- A mask acts on the three fields one by one. -/
theorem and_eq_commandWord_iff {w m : CommandWord} {op sel : Nibble} {data : Word} :
    w &&& m = commandWord op sel data ↔
      opField w &&& opField m = op ∧ selField w &&& selField m = sel ∧ dataField w &&& dataField m = data := by
  rw [eq_comm, commandWord_eq_iff]
  simp only [opField, selField, dataField, BitVec.extractLsb'_and]

/-- A mask with `OP` and `SEL` kept whole. -/
theorem and_eq_commandWord_iff_of_mask {w m : CommandWord} {op sel : Nibble} {data : Word} (hop : opField m = 0xF)
    (hsel : selField m = 0xF) :
    w &&& m = commandWord op sel data ↔
      opField w = op ∧ selField w = sel ∧ dataField w &&& dataField m = data := by
  have hwhole (x : Nibble) : x &&& 0xF = x := BitVec.and_allOnes
  rw [and_eq_commandWord_iff, hop, hsel, hwhole, hwhole]

/-- What the mask of a SET8 row asks of the data: a value that fits in a byte. -/
theorem and_ff00_eq_zero_iff (d : Word) : d &&& 0xFF00 = zext16 0 ↔ hiByte d = 0 := by
  have hhi : hiByte (d &&& 0xFF00) = hiByte d := BitVec.extractLsb'_and.trans BitVec.and_allOnes
  have hlo : loByte (d &&& 0xFF00) = 0 := BitVec.extractLsb'_and.trans BitVec.and_zero
  rw [eq_zext16_iff, hhi, and_iff_left hlo]

/-- The row of an operation spells its word. -/
theorem spells_encodeOp (op : Op) : (tableRow op).Spells (encodeOp op) := by
  cases op with
  | reset => exact BitVec.and_allOnes
  | get8 r => exact BitVec.and_allOnes
  | set8 r v =>
    refine (and_eq_commandWord_iff_of_mask (m := 0xFFFF00#24) (by decide) (by decide)).mpr ⟨?_, ?_, ?_⟩
    · exact opField_commandWord _ _ _
    · exact selField_commandWord _ _ _
    · rw [encodeOp, dataField_commandWord]
      exact (and_ff00_eq_zero_iff _).mpr (hiByte_zext16 v)
  | get16 q => exact BitVec.and_allOnes
  | set16 q v =>
    refine (and_eq_commandWord_iff_of_mask (m := 0xFF0000#24) (by decide) (by decide)).mpr ⟨?_, ?_, ?_⟩
    · exact opField_commandWord _ _ _
    · exact selField_commandWord _ _ _
    · exact BitVec.and_zero

/-- A word that a row spells is its operation's word at some operand. -/
theorem exists_encodeOp_of_spells {op : Op} {w : CommandWord} (h : (tableRow op).Spells w) :
    ∃ op', encodeOp op' = w ∧ blankOp op' = blankOp op := by
  cases op with
  | reset => exact ⟨.reset, h.symm.trans BitVec.and_allOnes, rfl⟩
  | get8 r => exact ⟨.get8 r, h.symm.trans BitVec.and_allOnes, rfl⟩
  | set8 r v =>
    obtain ⟨hop, hsel, hdata⟩ :=
      (and_eq_commandWord_iff_of_mask (m := 0xFFFF00#24) (by decide) (by decide)).mp h
    have hvalue : dataField w = zext16 (loByte (dataField w)) :=
      (zext16_loByte ((and_ff00_eq_zero_iff _).mp hdata)).symm
    exact ⟨.set8 r (loByte (dataField w)), commandWord_eq_iff.mpr ⟨hop, hsel, hvalue⟩, rfl⟩
  | get16 q => exact ⟨.get16 q, h.symm.trans BitVec.and_allOnes, rfl⟩
  | set16 q v =>
    obtain ⟨hop, hsel, -⟩ :=
      (and_eq_commandWord_iff_of_mask (m := 0xFF0000#24) (by decide) (by decide)).mp h
    exact ⟨.set16 q (dataField w), commandWord_eq_iff.mpr ⟨hop, hsel, rfl⟩, rfl⟩

/-- A row spells the words of its operation at every operand. -/
theorem spells_tableRow_iff (op : Op) (w : CommandWord) :
    (tableRow op).Spells w ↔ ∃ i, decode w = .op i ∧ i.blank = (tableRow op).op := by
  constructor
  · intro h
    obtain ⟨op', hw, hblank⟩ := exists_encodeOp_of_spells h
    refine ⟨op'.toInstr, decode_of_decodeOp (decodeOp_eq_some_iff.mpr hw), ?_⟩
    rw [blank_eq_toInstr_blankOp, toOp_toInstr, hblank]
    rfl
  · rintro ⟨i, hdecode, hblank⟩
    rw [decode_eq_op_iff, decodeOp_eq_some_iff] at hdecode
    have hop : blankOp i.toOp = blankOp op := by
      rw [← toOp_toInstr (blankOp i.toOp), ← blank_eq_toInstr_blankOp, hblank]
      exact toOp_toInstr _
    rw [← tableRow_congr hop, ← hdecode]
    exact spells_encodeOp i.toOp

/-- Settles O6: each of the 29 rows is the row of an operation, and such a row spells that operation's words; a word
has one operation, and an operation one row. -/
theorem tableRowsSpellTheirOperations : Obligations.TableRowsSpellTheirOperations := by
  unfold Obligations.TableRowsSpellTheirOperations
  have hspells (row) (hrow : row ∈ opcodeTable) (w : CommandWord) :
      row.Spells w ↔ ∃ i, decode w = .op i ∧ i.blank = row.op := by
    rw [eq_tableRow_of_mem row hrow]
    exact spells_tableRow_iff _ w
  refine ⟨rfl, fun i => ⟨tableRow i.toOp, tableRow_mem i.toOp, (blank_eq_toInstr_blankOp i).symm⟩, hspells,
    fun row hrow row' hrow' w h h' => ?_⟩
  obtain ⟨i, hi, hop⟩ := (hspells row hrow w).mp h
  obtain ⟨i', hi', hop'⟩ := (hspells row' hrow' w).mp h'
  obtain rfl : i = i' := Decoded.op.inj (hi.symm.trans hi')
  rw [eq_tableRow_of_mem row hrow, eq_tableRow_of_mem row' hrow', ← hop, ← hop']

/-! ### A command at the port (R60, R66) -/

/-- What the cycle of a word that spells an operation leaves and responds. -/
theorem step_present_of_decodeOp {w : CommandWord} {op : Op} {s t : State} (hop : decodeOp w = some op)
    (hstep : step (s.present w) = .next t) :
    t.rf = (perform Config.fWmask op s.rf).1 ∧ t.rsp = ⟨false, (perform Config.fWmask op s.rf).2⟩ := by
  rw [step_present, State.afterCycle_word_eq_execWord, execWord_of_decodeOp hop] at hstep
  cases hstep
  exact ⟨rfl, rfl⟩

/-- Settles O18: the response of a word is that of `perform` on its operation, or the ILLEGAL one. -/
theorem responseOfEveryCommand : Obligations.ResponseOfEveryCommand := by
  unfold Obligations.ResponseOfEveryCommand
  intro w s t hstep
  refine ⟨fun r hop => ?_, fun q hop => ?_, fun r v hop => ?_, fun q v hop => ?_, fun hop => ?_, fun hnone => ?_⟩
  · exact (step_present_of_decodeOp hop hstep).symm
  · exact (step_present_of_decodeOp hop hstep).symm
  · exact (step_present_of_decodeOp hop hstep).2
  · exact (step_present_of_decodeOp hop hstep).2
  · exact (step_present_of_decodeOp hop hstep).2
  · rw [step_present_of_illegal hnone] at hstep
    cases hstep
    rfl

/-- A register file with one byte everywhere. -/
def filledWith (b : Byte) : RegFile := ⟨b, b, b, b, b, b, b, b, pair b b, pair b b⟩

@[simp] theorem filledWith_read8 (b : Byte) (r : Reg8) : (filledWith b).read8 r = b := by cases r <;> rfl

@[simp] theorem filledWith_read16 (b : Byte) (q : Reg16) : (filledWith b).read16 q = pair b b := by cases q <;> rfl

/-- No operation both keeps every register file and responds zero to it. -/
theorem exists_perform_ne_idle (op : Op) : ∃ rf, perform Config.fWmask op rf ≠ (rf, 0) := by
  by_contra! hidle
  have hones := hidle (filledWith 0xFF)
  have hzeros := hidle (filledWith 0)
  cases op with
  | reset => exact absurd hzeros (by decide)
  | get8 r =>
    have hdata : zext16 ((filledWith 0xFF).read8 r) = 0 := congrArg Prod.snd hones
    rw [filledWith_read8] at hdata
    exact absurd hdata (by decide)
  | set8 r v =>
    have hkept (b : Byte) (h : perform Config.fWmask (.set8 r v) (filledWith b) = (filledWith b, 0)) : v = b :=
      calc v = ((filledWith b).write8 Config.fWmask r v).read8 r := (RegFile.read8_write8_normative r v _).symm
        _ = (filledWith b).read8 r := congrArg (·.1.read8 r) h
        _ = b := filledWith_read8 b r
    exact absurd ((hkept 0xFF hones).symm.trans (hkept 0 hzeros)) (by decide)
  | get16 q =>
    have hdata : (filledWith 0xFF).read16 q = 0 := congrArg Prod.snd hones
    rw [filledWith_read16] at hdata
    exact absurd hdata (by decide)
  | set16 q v =>
    have hkept (b : Byte) (h : perform Config.fWmask (.set16 q v) (filledWith b) = (filledWith b, 0)) :
        v = pair b b :=
      calc v = ((filledWith b).write16 Config.fWmask q v).read16 q := (RegFile.read16_write16_normative q v _).symm
        _ = (filledWith b).read16 q := congrArg (·.1.read16 q) h
        _ = pair b b := filledWith_read16 b q
    exact absurd ((hkept 0xFF hones).symm.trans (hkept 0 hzeros)) (by decide)

/-- Settles O13: an idle cycle asks for no event; a command word either answers the error or is an operation, which
some register file tells from an idle cycle. -/
theorem idleCycleHoldsTheState : Obligations.IdleCycleHoldsTheState := by
  unfold Obligations.IdleCycleHoldsTheState
  refine ⟨fun s w rest hinputs => ⟨?_, ?_⟩, fun w => ?_⟩
  · rw [step_eq, State.fetch_of_inputs_cons hinputs]
    rfl
  · rw [hinputs]
    exact eventsOf_cons_none rfl rest
  · cases hop : decodeOp w with
    | none =>
      refine ⟨State.reset, fun hidle => ?_⟩
      rw [step_present_of_illegal hop] at hidle
      cases hidle
    | some op =>
      obtain ⟨rf, hne⟩ := exists_perform_ne_idle op
      refine ⟨{ State.reset with rf := rf }, fun hidle => hne ?_⟩
      obtain ⟨hrf, hrsp⟩ := step_present_of_decodeOp hop hidle
      exact Prod.ext hrf.symm (congrArg Response.data hrsp).symm

/-! ### From a call to its operation (R52, R53, R62 to R64) -/

/-- The r8 ids that stand for a register, and which (R52). -/
theorem regOf8_id_eq_some_iff {n : Nat} {r : Reg8} : regOf8 (.id n) = some r ↔ n = (r8Id r).toNat := by
  have hid : (r8Id r).toNat ≤ 7 := by cases r <;> decide
  by_cases hn : n ≤ 7
  · rw [regOf8, if_pos hn, r8Of_eq_some_iff, ← BitVec.toNat_inj, BitVec.toNat_ofNat, Nat.mod_eq_of_lt (by omega)]
  · rw [regOf8, if_neg hn]
    exact iff_of_false (by simp) (by omega)

/-- The r16 ids that stand for a register or pair, and which (R53). -/
theorem regOf16_id_eq_some_iff {n : Nat} {q : Reg16} : regOf16 (.id n) = some q ↔ n = (r16Id q).toNat := by
  have hid : (r16Id q).toNat ≤ 5 := by cases q <;> decide
  by_cases hn : n ≤ 5
  · rw [regOf16, if_pos hn, r16Of_eq_some_iff, ← BitVec.toNat_inj, BitVec.toNat_ofNat, Nat.mod_eq_of_lt (by omega)]
  · rw [regOf16, if_neg hn]
    exact iff_of_false (by simp) (by omega)

/-- An r8 argument names a register exactly when it is well formed. -/
theorem isSome_regOf8 (r : RegArg8) : (regOf8 r).isSome = r.wellFormed := by
  cases r with
  | name r => rfl
  | id n =>
    by_cases hn : n ≤ 7
    · simp only [regOf8, RegArg8.wellFormed, hn]
      interval_cases n <;> rfl
    · simp [regOf8, RegArg8.wellFormed, hn]

/-- An r16 argument names a register or pair exactly when it is well formed. -/
theorem isSome_regOf16 (q : RegArg16) : (regOf16 q).isSome = q.wellFormed := by
  cases q with
  | name q => rfl
  | id n =>
    by_cases hn : n ≤ 5
    · simp only [regOf16, RegArg16.wellFormed, hn]
      interval_cases n <;> rfl
    · simp [regOf16, RegArg16.wellFormed, hn]

/-- A call spells an operation exactly when it is well formed. -/
theorem isSome_assemble (c : Call) : (assemble c).isSome = c.wellFormed := by
  cases c with
  | reset => rfl
  | newCPU => rfl
  | get8 r => simp [assemble, Call.wellFormed, isSome_regOf8]
  | set8 r n => by_cases hn : n ≤ 255 <;> simp [assemble, Call.wellFormed, isSome_regOf8, hn]
  | get16 q => simp [assemble, Call.wellFormed, isSome_regOf16]
  | set16 q n => by_cases hn : n ≤ 65535 <;> simp [assemble, Call.wellFormed, isSome_regOf16, hn]

/-- A `set8` call with a literal that fits. -/
theorem assemble_set8 {arg : RegArg8} {r : Reg8} (h : regOf8 arg = some r) (v : Byte) :
    assemble (.set8 arg v.toNat) = some (.set8 r v) := by
  have hv : v.toNat ≤ 255 := Nat.le_of_lt_succ v.isLt
  simp [assemble, hv, h]

/-- A `set16` call with a literal that fits. -/
theorem assemble_set16 {arg : RegArg16} {q : Reg16} (h : regOf16 arg = some q) (v : Word) :
    assemble (.set16 arg v.toNat) = some (.set16 q v) := by
  have hv : v.toNat ≤ 65535 := Nat.le_of_lt_succ v.isLt
  simp [assemble, hv, h]

/-- What an 8-bit write call spells: its register and its literal, whole. -/
theorem eq_of_assemble_set8 {arg : RegArg8} {n : Nat} {op : Op} (h : assemble (.set8 arg n) = some op) :
    ∃ r v, regOf8 arg = some r ∧ op = .set8 r v ∧ v.toNat = n := by
  have hn : n ≤ 255 := by
    by_contra hn
    simp [assemble, hn] at h
  obtain ⟨r, hr, rfl⟩ : ∃ r, regOf8 arg = some r ∧ .set8 r (BitVec.ofNat 8 n) = op := by simpa [assemble, hn] using h
  exact ⟨r, _, hr, rfl, Nat.mod_eq_of_lt (by omega)⟩

/-- What a 16-bit write call spells: its register or pair and its literal, whole. -/
theorem eq_of_assemble_set16 {arg : RegArg16} {n : Nat} {op : Op} (h : assemble (.set16 arg n) = some op) :
    ∃ q v, regOf16 arg = some q ∧ op = .set16 q v ∧ v.toNat = n := by
  have hn : n ≤ 65535 := by
    by_contra hn
    simp [assemble, hn] at h
  obtain ⟨q, hq, rfl⟩ : ∃ q, regOf16 arg = some q ∧ .set16 q (BitVec.ofNat 16 n) = op := by
    simpa [assemble, hn] using h
  exact ⟨q, _, hq, rfl, Nat.mod_eq_of_lt (by omega)⟩

/-- Settles O46: a call spells what its register argument and its literal say, and an id names the register it is the
id of. -/
theorem callsSpellExactlyWhenWellFormed : Obligations.CallsSpellExactlyWhenWellFormed := by
  unfold Obligations.CallsSpellExactlyWhenWellFormed
  have hid8 (r : Reg8) : regOf8 (.id (r8Id r).toNat) = some r := regOf8_id_eq_some_iff.mpr rfl
  have hid16 (q : Reg16) : regOf16 (.id (r16Id q).toNat) = some q := regOf16_id_eq_some_iff.mpr rfl
  refine ⟨fun c => by rw [isSome_assemble], fun _ _ _ => eq_of_assemble_set8, fun _ _ _ => eq_of_assemble_set16,
    fun r => ⟨rfl, fun _ => regOf8_id_eq_some_iff⟩, fun q => ⟨rfl, fun _ => regOf16_id_eq_some_iff⟩,
    fun r v => ⟨assemble_set8 rfl v, assemble_set8 (hid8 r) v⟩,
    fun q v => ⟨assemble_set16 rfl v, assemble_set16 (hid16 q) v⟩, fun r => ⟨?_, rfl⟩, fun q => ⟨?_, rfl⟩⟩
  · rw [assemble, assemble, hid8]; rfl
  · rw [assemble, assemble, hid16]; rfl

/-- Settles O47: the two texts are read as the two calls, both spell `reset`, and `reset` is performed in place. -/
theorem newCpuIsReset : Obligations.NewCpuIsReset := by
  unfold Obligations.NewCpuIsReset
  refine ⟨by decide, by decide, rfl, fun op s hop => ?_⟩
  cases hop
  exact exec_toInstr .reset s

/-! ### Reading a written call (R62) -/

/-- A text without blanks is not trimmed. -/
theorem trim_of_no_blank {cs : List Char} (h : ∀ c ∈ cs, isBlank c = false) : trim cs = cs := by
  have hkeep {ds : List Char} (hds : ∀ c ∈ ds, isBlank c = false) : ds.dropWhile isBlank = ds := by
    cases ds with
    | nil => rfl
    | cons c ds => simp [hds c]
  rw [trim, hkeep h, hkeep (by simpa using h), List.reverse_reverse]

/-- A text without separators is one piece. -/
theorem cutAt_of_no_separator {sep : Char → Bool} {cs : List Char} (h : ∀ c ∈ cs, sep c = false) :
    cutAt sep cs = [cs] := by
  induction cs with
  | nil => rfl
  | cons c cs ih =>
    obtain ⟨hc, hcs⟩ := List.forall_mem_cons.mp h
    simp [cutAt, hc, ih hcs]

/-- One argument without blanks and commas. -/
theorem parseArgs_single {arg : List Char} (hne : arg ≠ []) (hblank : ∀ c ∈ arg, isBlank c = false)
    (hcomma : ∀ c ∈ arg, (c == ',') = false) : parseArgs arg = [arg] := by
  rw [parseArgs, trim_of_no_blank hblank, if_neg hne, cutAt_of_no_separator hcomma, List.map_singleton,
    trim_of_no_blank hblank]

/-- A text without blanks is cut into the name before the first parenthesis and the arguments up to the last. -/
theorem parseCall_of_no_blank {name body : List Char} (hname : ∀ c ∈ name, c ≠ '(')
    (hblank : ∀ c ∈ name ++ '(' :: (body ++ [')']), isBlank c = false) :
    parseCall (name ++ '(' :: (body ++ [')'])) = parseShape name (parseArgs body) := by
  have hspan : (name ++ '(' :: (body ++ [')'])).span (· ≠ '(') = (name, '(' :: (body ++ [')'])) := by
    rw [List.span_eq_takeWhile_dropWhile, List.takeWhile_append_of_pos (by simpa using hname),
      List.dropWhile_append_of_pos (by simpa using hname)]
    simp
  rw [parseCall, trim_of_no_blank hblank, hspan]
  simp

/-- One more hexadecimal digit. -/
theorem digitsFrom_hexDigit (acc : Nat) (n : Nibble) (cs : List Char) :
    digitsFrom 16 acc (hexDigit n :: cs) = digitsFrom 16 (acc * 16 + n.toNat) cs := by
  have hn : n.toNat < 16 := n.isLt
  simp only [digitsFrom, digitOf_hexDigit, if_pos hn]

/-- A written 8-bit literal reads back. -/
theorem parseNumber_hex8 (v : Byte) : parseNumber (hex8 v) = some v.toNat := by
  have hdigits : parseNumber (hex8 v) = digitsFrom 16 0 [hexDigit (v.extractLsb' 4 4), hexDigit (v.extractLsb' 0 4)] :=
    rfl
  have hv := v.isLt
  rw [hdigits, digitsFrom_hexDigit, digitsFrom_hexDigit, digitsFrom, Option.some.injEq]
  simp only [BitVec.extractLsb'_toNat, Nat.shiftRight_eq_div_pow]
  omega

/-- A written 16-bit literal reads back. -/
theorem parseNumber_hex16 (v : Word) : parseNumber (hex16 v) = some v.toNat := by
  have hdigits : parseNumber (hex16 v) = digitsFrom 16 0 [hexDigit (v.extractLsb' 12 4),
      hexDigit (v.extractLsb' 8 4), hexDigit (v.extractLsb' 4 4), hexDigit (v.extractLsb' 0 4)] := rfl
  have hv := v.isLt
  rw [hdigits, digitsFrom_hexDigit, digitsFrom_hexDigit, digitsFrom_hexDigit, digitsFrom_hexDigit, digitsFrom,
    Option.some.injEq]
  simp only [BitVec.extractLsb'_toNat, Nat.shiftRight_eq_div_pow]
  omega

/-- A character that the reading of a call takes as it stands: no blank, no comma and no opening parenthesis. -/
def isPlain (c : Char) : Bool := c != ' ' && c != ',' && c != '('

/-- A plain character, separator by separator. -/
theorem isPlain_iff {c : Char} : isPlain c = true ↔ isBlank c = false ∧ (c == ',') = false ∧ c ≠ '(' := by
  simp [isPlain, isBlank, and_assoc]

/-- A hexadecimal digit is plain. -/
theorem isPlain_hexDigit (n : Nibble) : isPlain (hexDigit n) = true := by
  obtain ⟨hblank, hcomma, hparen, -⟩ := hexDigit_plain n
  simp [isPlain, hblank, hcomma, hparen]

/-- A written 8-bit literal is plain. -/
theorem isPlain_of_mem_hex8 (v : Byte) : ∀ c ∈ hex8 v, isPlain c = true := by
  have hzerox : isPlain '0' = true ∧ isPlain 'x' = true := by decide
  simp [hex8, hzerox, isPlain_hexDigit]

/-- A written 16-bit literal is plain. -/
theorem isPlain_of_mem_hex16 (v : Word) : ∀ c ∈ hex16 v, isPlain c = true := by
  have hzerox : isPlain '0' = true ∧ isPlain 'x' = true := by decide
  simp [hex16, hzerox, isPlain_hexDigit]

/-- A call with one argument, its name and argument in plain characters. -/
theorem parseCall_single {name arg : List Char} (hname : ∀ c ∈ name, isPlain c = true) (hne : arg ≠ [])
    (harg : ∀ c ∈ arg, isPlain c = true) :
    parseCall (name ++ ['('] ++ arg ++ [')']) = parseShape name [arg] := by
  simp only [isPlain_iff] at hname harg
  have hblank : ∀ c ∈ name ++ '(' :: (arg ++ [')']), isBlank c = false := by
    have hparens : isBlank '(' = false ∧ isBlank ')' = false := by decide
    simp only [List.mem_append, List.mem_cons, List.not_mem_nil, or_false]
    rintro c (hc | rfl | hc | rfl)
    exacts [(hname c hc).1, hparens.1, (harg c hc).1, hparens.2]
  have htext : name ++ ['('] ++ arg ++ [')'] = name ++ '(' :: (arg ++ [')']) := by simp
  rw [htext, parseCall_of_no_blank (fun c hc => (hname c hc).2.2) hblank,
    parseArgs_single hne (fun c hc => (harg c hc).1) fun c hc => (harg c hc).2.1]

/-- Settles O45: a call without argument is read as it stands, one with a literal is cut into a name and digits, which
give the register and the value. -/
theorem writtenOperationIsReadBack : Obligations.WrittenOperationIsReadBack := by
  unfold Obligations.WrittenOperationIsReadBack
  intro op
  cases op with
  | reset => decide
  | get8 r => cases r <;> decide
  | set8 r v =>
    have hname : ∀ c ∈ ['s', 'e', 't'] ++ nameOf8 r, isPlain c = true := by cases r <;> simp [nameOf8, isPlain]
    have hshape (lit : List Char) : parseShape (['s', 'e', 't'] ++ nameOf8 r) [lit] =
        (parseNumber lit).map (.set8 (.name r)) := by cases r <;> rfl
    rw [parseOp, writeCall, parseCall_single (arg := hex8 v) hname (List.cons_ne_nil _ _) (isPlain_of_mem_hex8 v),
      hshape, parseNumber_hex8]
    exact assemble_set8 rfl v
  | get16 q => cases q <;> decide
  | set16 q v =>
    have hname : ∀ c ∈ ['s', 'e', 't'] ++ nameOf16 q, isPlain c = true := by cases q <;> simp [nameOf16, isPlain]
    have hshape (lit : List Char) : parseShape (['s', 'e', 't'] ++ nameOf16 q) [lit] =
        (parseNumber lit).map (.set16 (.name q)) := by cases q <;> rfl
    rw [parseOp, writeCall, parseCall_single (arg := hex16 v) hname (List.cons_ne_nil _ _) (isPlain_of_mem_hex16 v),
      hshape, parseNumber_hex16]
    exact assemble_set16 rfl v

end Sys2Proof.Machine
end

section
/-! PROOFS. The family 40_reset. The command `reset` puts `RESET_STATE` in the register file whatever it held, and it
has one word: any other word with `OP` = 1 is ILLEGAL of class I2 (R68). -/

namespace Sys2Proof.Machine

/-- exec of `reset` keeps nothing of the register file and the response it starts from. -/
theorem exec_reset (s : State) : exec .reset s = .next { s with rf := RegFile.reset, rsp := Response.zero } := by
  rw [exec_eq, State.performed_eq_perform]
  rfl

/-- A word with `OP` = 1 that is not the word of `reset` has a bit set in `SEL` or `DATA`. -/
theorem resetWithOperand_holds {w : CommandWord} (hop : (opField w).toNat = 1) (hne : w ≠ encodeOp .reset) :
    IllegalClass.resetWithOperand.Holds w := by
  refine ⟨hop, not_and_or.mp fun ⟨hsel, hdata⟩ => hne ?_⟩
  exact (commandWord_eq_iff.mpr ⟨BitVec.eq_of_toNat_eq hop, hsel, hdata⟩).symm

/-- A word to which a class of R58 applies decodes to that class, and its cycle answers the error. -/
theorem illegal_of_holds {w : CommandWord} {c : IllegalClass} (h : c.Holds w) (s : State) :
    decode w = .illegal c ∧ step (s.present w) = .next { s with rsp := ⟨true, 0⟩ } := by
  have hclass : illegalClass w = c := illegalClass_of_holds h
  have hnone : decodeOp w = none := (decodeOp_eq_none_iff w).mpr (hclass ▸ h)
  exact ⟨(decode_eq_illegal_iff w c).mpr ⟨hnone, hclass⟩, step_present_of_illegal hnone s⟩

/-- Settles O21: exec of `reset` leaves `RESET_STATE`, whose flags are R34's; another word with `OP` = 1 is of class
I2; and an ILLEGAL word leaves only its response, which `reset` does not look at. -/
theorem resetRestoresTheResetState : Obligations.ResetRestoresTheResetState := by
  unfold Obligations.ResetRestoresTheResetState
  refine ⟨exec_reset, decode_of_decodeOp (decodeOp_encodeOp .reset),
    fun w s hop hne => illegal_of_holds (resetWithOperand_holds hop hne) s, fun s t h => ?_, fun w s t hnone h => ?_⟩
  · obtain ⟨-, -, -, -, hflags⟩ := resetStateViews
    have hrf : t.rf = RegFile.reset := (exec_next h).1
    rw [hrf]
    exact hflags
  · rw [step_present_of_illegal hnone] at h
    cases h
    rw [exec_reset, exec_reset]

end Sys2Proof.Machine
end

section
/-! PROOFS. The family 41_get8. A read answers its register zero-extended and leaves the register file; its word is the
only one of its group and id that is legal (R70 to R77). -/

namespace Sys2Proof.Machine

/-- exec of an 8-bit read, the value being known. -/
theorem exec_get8 {r : Reg8} {s : State} {v : Byte} (h : s.rf.read8 r = v) :
    exec (Op.get8 r).toInstr s = .next { s with rsp := ⟨false, zext16 v⟩ } := by
  rw [exec_toInstr, ← h]
  rfl

/-- A word of the group of the 8-bit reads that has data bits is of class I3. -/
theorem badGet8_holds {r : Reg8} {w : CommandWord} (hop : opField w = opField (encodeOp (.get8 r)))
    (hdata : dataField w ≠ 0) : IllegalClass.badGet8.Holds w := by
  rw [encodeOp, opField_commandWord] at hop
  exact ⟨congrArg BitVec.toNat hop, .inr hdata⟩

/-- A read of an 8-bit register, `q` being a pair it belongs to and `half` what the write of `q` leaves in it. -/
theorem readRule8 {r : Reg8} {q : Reg16} {half : Word → Byte}
    (hhalf : ∀ v (rf : RegFile), (rf.write16 Config.fWmask q v).read8 r = half v) :
    Claims.ReadRule8 (Op.get8 r).toInstr (encodeOp (.get8 r)) (·.read8 r) (fun v => (Op.set8 r v).toInstr)
      (fun v => (Op.set16 q v).toInstr) half := by
  refine ⟨fun s => exec_get8 rfl, zext16_toNat, decode_of_decodeOp (decodeOp_encodeOp (.get8 r)),
    fun w s hop _ hdata => illegal_of_holds (badGet8_holds hop hdata) s, fun v s t h => ?_, fun v s t h => ?_⟩
  · have hrf : t.rf = s.rf.write8 Config.fWmask r v := by rw [(exec_next h).1, toOp_toInstr, perform]
    exact exec_get8 (by rw [hrf, RegFile.read8_write8_normative])
  · have hrf : t.rf = s.rf.write16 Config.fWmask q v := by rw [(exec_next h).1, toOp_toInstr, perform]
    exact exec_get8 (by rw [hrf, hhalf])

/-- A response whose low byte is F shows Z, N, H and C at bits 7 to 4 (R75). -/
theorem flags_of_loByte {d : Word} {rf : RegFile} (h : loByte d = rf.f) :
    d.getLsbD 7 = rf.flagZ ∧ d.getLsbD 6 = rf.flagN ∧ d.getLsbD 5 = rf.flagH ∧ d.getLsbD 4 = rf.flagC := by
  have hbit {i : Nat} (hi : i < 8) : d.getLsbD i = rf.f.getLsbD i := by rw [← h, getLsbD_loByte hi]
  exact ⟨hbit (by decide), hbit (by decide), hbit (by decide), hbit (by decide)⟩

/-- What `getF` responds is F zero-extended. -/
theorem getF_data {s t : State} (h : exec .getF s = .next t) : t.rsp.data = zext16 s.rf.f := by
  rw [(exec_next h).2]
  rfl

/-- Settles O22: `readRule8` at the eight registers, each a half of its pair; the low byte that `getF` responds is F,
which is 0xB0 at reset. -/
theorem get8Operations : Obligations.Get8Operations := by
  unfold Obligations.Get8Operations
  refine ⟨readRule8 (r := .a) (q := .af) fun _ _ => rfl, readRule8 (r := .b) (q := .bc) fun _ _ => rfl,
    readRule8 (r := .c) (q := .bc) fun _ _ => rfl, readRule8 (r := .d) (q := .de) fun _ _ => rfl,
    readRule8 (r := .e) (q := .de) fun _ _ => rfl, readRule8 (r := .f) (q := .af) fun _ _ => rfl,
    readRule8 (r := .h) (q := .hl) fun _ _ => rfl, readRule8 (r := .l) (q := .hl) fun _ _ => rfl,
    fun s t h => ?_, fun t h => ?_⟩
  · exact flags_of_loByte (by rw [getF_data h, loByte_zext16])
  · rw [getF_data h]
    decide

end Sys2Proof.Machine
end

section
/-! PROOFS. The family 43_set8. A write stores its operand in its register and leaves the other nine fields; a word of
its group and id with a wide value is ILLEGAL; the reads of the register and of its pair see the value (R85 to R93). -/

namespace Sys2Proof.Machine

/-- exec of an 8-bit write, the register file it leaves being known. -/
theorem exec_set8 {r : Reg8} {v : Byte} {s : State} {rf : RegFile} (h : s.rf.write8 Config.fWmask r v = rf) :
    exec (Op.set8 r v).toInstr s = .next { s with rf := rf, rsp := ⟨false, 0⟩ } := by
  rw [exec_toInstr, ← h]
  rfl

/-- The word of an 8-bit write is its base word with the operand put in (R54). -/
theorem encodeOp_set8_or (r : Reg8) (v : Byte) : encodeOp (.set8 r 0) ||| v.setWidth 24 = encodeOp (.set8 r v) := by
  have hdata : v.setWidth 24 = (zext16 v).setWidth 24 := (BitVec.setWidth_setWidth (by decide)).symm
  rw [hdata]
  exact commandWord_or_data 3 (r8Id r) (zext16 v)

/-- A word of the group of the 8-bit writes that has a bit set in `DATA[15:8]` is of class I4. -/
theorem badSet8_holds {r : Reg8} {w : CommandWord} (hop : opField w = opField (encodeOp (.set8 r 0)))
    (hwide : hiByte (dataField w) ≠ 0) : IllegalClass.badSet8.Holds w := by
  rw [encodeOp, opField_commandWord] at hop
  exact ⟨congrArg BitVec.toNat hop, .inr hwide⟩

/-- A write of an 8-bit register, `upd` being the write in terms of the fields, `q` a pair the register belongs to and
`seen` the value of `q` after the write. -/
theorem writeRule8 {r : Reg8} {q : Reg16} {upd : Byte → RegFile → RegFile} {seen : Byte → RegFile → Word}
    (hupd : ∀ v rf, rf.write8 Config.fWmask r v = upd v rf) (hseen : ∀ v rf, (upd v rf).read16 q = seen v rf) :
    Claims.WriteRule8 (fun v => (Op.set8 r v).toInstr) (encodeOp (.set8 r 0)) upd (Op.get8 r).toInstr
      (Op.get16 q).toInstr seen := by
  have hrf {v : Byte} {s t : State} (h : exec (Op.set8 r v).toInstr s = .next t) :
      t.rf = s.rf.write8 Config.fWmask r v := by rw [(exec_next h).1, toOp_toInstr, perform]
  refine ⟨fun v s => exec_set8 (hupd v s.rf), fun v => ?_,
    fun w s hop _ hwide => illegal_of_holds (badSet8_holds hop hwide) s, fun v s t h => ?_, fun v s t h => ?_⟩
  · rw [encodeOp_set8_or]
    exact decode_of_decodeOp (decodeOp_encodeOp (.set8 r v))
  · exact exec_get8 (by rw [hrf h, RegFile.read8_write8_normative])
  · exact exec_get16 (by rw [hrf h, hupd, hseen])

/-- What `setF` leaves in F is its operand (R91). -/
theorem setF_f {v : Byte} {s t : State} (h : exec (.setF v) s = .next t) : t.rf.f = v := by
  rw [(exec_next h).1]
  exact maskF_normative v

/-- Mask 0xF0 stores a value unchanged exactly when its low nibble is zero (R26). -/
theorem and_f0_eq_self_iff (v : Byte) : v &&& 0xF0 = v ↔ lowNibble v = 0 := by
  constructor
  · intro h
    rw [← h, lowNibble_and]
    exact BitVec.and_zero
  · intro h
    exact (maskF_ff_eq_f0 h).symm.trans (maskF_normative v)

/-- Settles O24: `writeRule8` at the eight registers, each a half of its pair; F after `setF` is the operand, and
mask 0xF0 would clear the low nibble of what is stored. -/
theorem set8Operations : Obligations.Set8Operations := by
  unfold Obligations.Set8Operations
  refine ⟨writeRule8 (q := .af) (RegFile.write8_normative .a) fun _ _ => rfl,
    writeRule8 (q := .bc) (RegFile.write8_normative .b) fun _ _ => rfl,
    writeRule8 (q := .bc) (RegFile.write8_normative .c) fun _ _ => rfl,
    writeRule8 (q := .de) (RegFile.write8_normative .d) fun _ _ => rfl,
    writeRule8 (q := .de) (RegFile.write8_normative .e) fun _ _ => rfl,
    writeRule8 (q := .af) (RegFile.write8_normative .f) fun _ _ => rfl,
    writeRule8 (q := .hl) (RegFile.write8_normative .h) fun _ _ => rfl,
    writeRule8 (q := .hl) (RegFile.write8_normative .l) fun _ _ => rfl,
    fun v s t h => ?_, fun v rf => ⟨?_, and_f0_eq_self_iff v⟩⟩
  · rw [RegFile.Canonical, RegFile.flagZ, RegFile.flagN, RegFile.flagH, RegFile.flagC, setF_f h]
    exact ⟨rfl, rfl, rfl, rfl, rfl, Iff.rfl⟩
  · rw [encode, execWord_encodeOp]
    rfl

end Sys2Proof.Machine
end

section
/-! PROOFS. The family 60_exceptions. The block has one exception, the ILLEGAL word: its cycle changes the response
lines alone (R103), which no later cycle looks at (R104), and nothing else answers `err` = 1 (R101, R102, R105). -/

namespace Sys2Proof.Machine

/-! ### The ILLEGAL word (R102 to R104) -/

/-- A word to which a class of R58 applies decodes to nothing. -/
theorem decodeOp_eq_none_of_holds {w : CommandWord} {c : IllegalClass} (h : c.Holds w) : decodeOp w = none :=
  (decodeOp_eq_none_iff w).mpr (illegalClass_of_holds h ▸ h)

/-- Settles O9: the port and the transaction model both give a rejected word the ILLEGAL response alone, and the three
families of words fall under the classes I4, I6 and I2. -/
theorem illegalWordChangesNothing : Obligations.IllegalWordChangesNothing := by
  unfold Obligations.IllegalWordChangesNothing
  refine ⟨fun w s hnone => step_present_of_illegal hnone s, fun w m rf hnone => execWord_of_decodeOp_none hnone m rf,
    fun w hop hwide => ?_, fun w hop hsel => ?_, fun w hop hne => ?_⟩
  · exact decodeOp_eq_none_of_holds (c := .badSet8) ⟨hop, .inr hwide⟩
  · exact decodeOp_eq_none_of_holds (c := .badSet16) ⟨hop, hsel.ge⟩
  · exact decodeOp_eq_none_of_holds (resetWithOperand_holds hop hne)

/-- A run of at least one cycle does not depend on what the response lines show before it. -/
theorem runCycles_succ_with_rsp (k : Nat) (s : State) (r : Response) :
    runCycles (k + 1) { s with rsp := r } = runCycles (k + 1) s := by
  rw [runCycles, runCycles, responseLinesAreNeverRead s r]

/-- Settles O10: the first cycle leaves only its response, and the next cycle does not look at it. -/
theorem illegalWordLeavesNoTrace : Obligations.IllegalWordLeavesNoTrace := by
  unfold Obligations.IllegalWordLeavesNoTrace
  intro w s k hnone
  calc runCycles (k + 2) (s.present w)
      = runCycles (k + 1) { s with rsp := ⟨true, 0⟩ } := by rw [runCycles, step_present_of_illegal hnone]
    _ = runCycles (k + 1) s := runCycles_succ_with_rsp k s _

/-! ### What answers `err` = 1 (R101, R102, R105) -/

/-- An event answers the error exactly when it is not legal. -/
theorem applyEvent_err (m : Byte) (e : Event) (rf : RegFile) : (applyEvent m e rf).2.err = !e.legal := by
  cases e with
  | reset => rfl
  | word w =>
    cases h : decodeOp w with
    | none => simp [applyEvent, execWord_of_decodeOp_none h, Event.legal, h]
    | some op => simp [applyEvent, execWord_of_decodeOp h, Event.legal, h]

/-- A word of some class is a word that decodes to nothing. -/
theorem exists_decode_eq_illegal_iff (w : CommandWord) : (∃ c, decode w = .illegal c) ↔ decodeOp w = none := by
  simp [decode_eq_illegal_iff]

/-- Settles O16: exec leads to the performed operation's state, and a step to the state after the cycle on its pins. -/
theorem noOperationFails : Obligations.NoOperationFails := by
  unfold Obligations.NoOperationFails
  refine ⟨fun i s => ⟨_, exec_eq i s, ?_⟩, fun s => ⟨_, step_eq s⟩⟩
  rw [State.performed_rsp]

/-- Settles O17: the event of the cycle is the word, which is legal exactly when it decodes, and the cycle of a rejected
word changes the response alone. -/
theorem errMeansIllegalWord : Obligations.ErrMeansIllegalWord := by
  unfold Obligations.ErrMeansIllegalWord
  intro w s t hstep
  have herr : t.rsp.err = true ↔ decodeOp w = none := by
    rw [step_present] at hstep
    cases hstep
    rw [State.afterCycle_event_rsp, applyEvent_err]
    simp [Event.legal]
  refine ⟨herr.trans (exists_decode_eq_illegal_iff w).symm, fun h => ?_⟩
  rw [step_present_of_illegal (herr.mp h)] at hstep
  cases hstep
  exact ⟨rfl, rfl⟩

/-- Settles O38: the cycle performed takes its event off a schedule of legal events, and a legal event, like an idle
cycle, answers no error. -/
theorem legalRunsNeverAnswerErr : Obligations.LegalRunsNeverAnswerErr := by
  unfold Obligations.LegalRunsNeverAnswerErr
  rintro s t ⟨-, hlegal⟩ hstep
  rw [State.eventsOf_inputs] at hlegal
  obtain rfl : s.fetch.2.afterCycle s.fetch.1.event = t := by simpa [step_eq] using hstep
  refine ⟨?_, fun e he => hlegal e (List.mem_append_right _ (by simpa using he))⟩
  cases hevent : s.fetch.1.event with
  | none => rfl
  | some e =>
    have he : e.legal = true := hlegal e (by simp [hevent])
    rw [State.afterCycle_event_rsp, applyEvent_err, he, Bool.not_true]

end Sys2Proof.Machine
end

section
/-! PROOFS. The family 70_reset_and_hazards. A reset edge beats the command on its pins and keeps nothing of the state
it meets (R115, R117), so it cuts a stream of cycles in two (R124); a write keeps nothing of an earlier write to the
fields it stores (R123). -/

namespace Sys2Proof.Machine

/-! ### The reset pin (R115 to R117) -/

/-- The pins of a reset edge ask for the event `Reset`, whatever the command lines carry. -/
@[simp] theorem PortIn.reset_event (valid : Bool) (w : CommandWord) :
    PortIn.event ⟨true, valid, w⟩ = some .reset := rfl

/-- A reset edge leaves `RESET_STATE`, a zero response and the cycles after it. -/
theorem step_of_reset_edge {s : State} {valid : Bool} {w : CommandWord} {rest : List PortIn}
    (h : s.inputs = ⟨true, valid, w⟩ :: rest) :
    step s = .next { rf := RegFile.reset, rsp := Response.zero, inputs := rest } := by
  rw [step_eq, State.fetch_of_inputs_cons h, PortIn.reset_event]
  rfl

/-- Settles O11: the pins of the edge ask for a reset, both in the step and in the list of events. -/
theorem resetPinBeatsACommand : Obligations.ResetPinBeatsACommand := by
  unfold Obligations.ResetPinBeatsACommand
  intro s valid w rest h
  refine ⟨step_of_reset_edge h, ?_⟩
  rw [h]
  exact List.filterMap_cons_some (PortIn.reset_event valid w)

/-- Settles O12: what the pin leaves and what the command leaves both come from no state before. -/
theorem resetPinAndCommandAgree : Obligations.ResetPinAndCommandAgree := by
  unfold Obligations.ResetPinAndCommandAgree
  intro s s' valid w
  exact ⟨_, _, step_of_reset_edge rfl, exec_reset s', rfl, rfl, rfl⟩

/-! ### Streams of cycles (R124, R126) -/

/-- Settles O42: a run of any length is the fold over its cycles, which takes their pins off the list. -/
theorem runsNeverStop : Obligations.RunsNeverStop := by
  unfold Obligations.RunsNeverStop
  intro k s
  obtain ⟨t, hrun, hinputs, -⟩ := runCycles_fold k s
  exact ⟨t, hrun, hinputs⟩

/-- Settles O43: the cycles before the edge lead to some state with the edge next on its list, and the edge keeps
nothing of that state but the cycles after it. -/
theorem resetInAStream : Obligations.ResetInAStream := by
  unfold Obligations.ResetInAStream
  intro s pre post valid w h
  obtain ⟨u, hrun, hinputs, -⟩ := runCycles_fold pre.length s
  rw [h, List.drop_left] at hinputs
  rw [runCycles_succ_last hrun]
  exact step_of_reset_edge hinputs

/-! ### Two writes in a row (R123) -/

/-- An operation that does and responds the same whether or not another was performed just before it makes the other
invisible to exec. -/
theorem exec_after_overwritten {op op' : Op} {s t : State} (h : exec op.toInstr s = .next t)
    (hsame : perform Config.fWmask op' (perform Config.fWmask op s.rf).1 = perform Config.fWmask op' s.rf) :
    exec op'.toInstr t = exec op'.toInstr s := by
  rw [exec_toInstr] at h
  cases h
  simp only [exec_toInstr, State.performed_eq_perform, hsame]

/-- A pair write replaces an earlier write to one of its halves. -/
theorem RegFile.write16_write8_half {q : Reg16} {hi lo r : Reg8} (h : halves q = some (hi, lo)) (hr : r = hi ∨ r = lo)
    (m b : Byte) (v : Word) (rf : RegFile) : (rf.write8 m r b).write16 m q v = rf.write16 m q v := by
  rw [RegFile.write16_of_halves h, RegFile.write16_of_halves h]
  obtain rfl | rfl := hr
  · rw [RegFile.write8_write8]
  · rw [RegFile.write8_comm m (halves_ne h).symm, RegFile.write8_write8]

/-- Settles O34: a write of a register, SP, PC or pair replaces an earlier write to it or to its half, and a write of a
half leaves the other half. -/
theorem lastWriterWins : Obligations.LastWriterWins := by
  unfold Obligations.LastWriterWins
  refine ⟨fun r v w s t ht => ?_, fun q v w s t ht => ?_, fun q hi lo r v b s t u _ _ _ hu => ?_,
    fun q hi lo r v b s t h hr ht => ?_⟩
  · exact exec_after_overwritten ht (congrArg (·, 0) (RegFile.write8_write8 _ r v w s.rf))
  · exact exec_after_overwritten ht (congrArg (·, 0) (RegFile.write16_write16 _ q v w s.rf))
  · have hrf : u.rf = t.rf.write8 Config.fWmask r b := by rw [(exec_next hu).1, toOp_toInstr, perform]
    rw [hrf]
    exact ⟨RegFile.read8_write8_normative r b t.rf, fun r' _ hne => RegFile.read8_write8_other _ hne b t.rf⟩
  · exact exec_after_overwritten ht (congrArg (·, 0) (RegFile.write16_write8_half h hr _ b v s.rf))

end Sys2Proof.Machine
end

section
/-! PROOFS. The end of the list of coming cycles (log entry 1): the fetch finds nothing to take off and answers idle
pins, which ask for no event. -/

namespace Sys2Proof.Machine

/-- A fetch from an empty list of coming cycles. -/
theorem State.fetch_of_inputs_nil {s : State} (h : s.inputs = []) : s.fetch = (PortIn.idle, s) := by
  simp only [State.fetch, h]

/-- Settles O14: the pins fetched are idle ones, and an idle cycle changes the response alone. -/
theorem stoppedConsumerLeavesThePortIdle : Obligations.StoppedConsumerLeavesThePortIdle := by
  unfold Obligations.StoppedConsumerLeavesThePortIdle
  intro s h
  rw [step_eq, State.fetch_of_inputs_nil h, PortIn.idle_event]
  rfl

end Sys2Proof.Machine
end
